-- ==== Sys2Proof/Word.lean ====
section
/-!
DEFINITION. The words of the FX32 unit: 32-bit operands and results, the 4-bit operation code, the
68-bit command word and the 34-bit response word (00_scope.md R11, 30_encoding.md R50, R51).
-/

namespace Sys2Proof

/-- An operand or a result: 32 bits, bit 0 the least significant (R11). -/
abbrev Word := BitVec 32

/-- The field `OP`, 4 bits (R50). -/
abbrev OpCode := BitVec 4

/-- The command word `{OP[67:64], A[63:32], B[31:0]}` (R50). -/
abbrev CmdWord := BitVec 68

/-- The response word `{STAT[33:32], R[31:0]}` (R51). -/
abbrev RspWord := BitVec 34

end Sys2Proof
end

