-- ==== Sys2Proof/Syntax.lean ====
section
/-!
DEFINITION. The operations of the FX32 command set 1.0, one constructor per row of the operation-code
map (30_encoding.md R53): the twelve operations and the four reserved codes.
-/

namespace Sys2Proof

/-- One command: its operation and the fields `A` and `B` as they stand in the command word. Every
constructor keeps both fields, so that no bit of the word is lost in decoding; the operations of form
FU and the reserved codes do not read `B` (R52, R55, R56). -/
inductive Instr where
  /-- 0x0, `A + B` (R90). -/
  | add (a b : Word)
  /-- 0x1, `A - B` (R92). -/
  | sub (a b : Word)
  /-- 0x2, the widened product (R100). -/
  | mul (a b : Word)
  /-- 0x3, the widened quotient (R110). -/
  | div (a b : Word)
  /-- 0x4, the native-width product (R102). -/
  | muln (a b : Word)
  /-- 0x5, the native-width quotient (R112). -/
  | divn (a b : Word)
  /-- 0x6, rounding toward negative infinity (R120). -/
  | floor (a b : Word)
  /-- 0x7, rounding toward positive infinity (R122). -/
  | ceil (a b : Word)
  /-- 0x8, fixed to integer, toward negative infinity (R80). -/
  | resolvet (a b : Word)
  /-- 0x9, fixed to integer, to nearest (R82). -/
  | resolver (a b : Word)
  /-- 0xA, integer to fixed with raw fraction bits (R70). -/
  | maker (a b : Word)
  /-- 0xB, integer to fixed with a fraction out of `Q` (R72). -/
  | maked (a b : Word)
  /-- 0xC, reserved (R56). -/
  | reservedC (a b : Word)
  /-- 0xD, reserved (R56). -/
  | reservedD (a b : Word)
  /-- 0xE, reserved (R56). -/
  | reservedE (a b : Word)
  /-- 0xF, reserved (R56). -/
  | reservedF (a b : Word)
  deriving DecidableEq, Repr

end Sys2Proof
end

