-- ==== Sys2Proof/WellFormed.lean ====
section
/-!
DEFINITION. The checks the spec puts on what is presented to the unit. On the fields of a command there
is none: no value of `A` or `B` makes a command word illegal (30_encoding.md R54), so every term of
`Instr` is a well-formed instruction. What is checked is the build parameters (00_scope.md R5, R6, R8),
the length of a command word (R50), and what the assembler writes (R58).
-/

namespace Sys2Proof

/-- The configuration check of R8: `F` in 1 .. 31 (R5) and `Q` in 1 .. 65536 (R6). -/
def paramsOk (F Q : Nat) : Bool :=
  decide (1 ≤ F ∧ F ≤ 31) && decide (1 ≤ Q ∧ Q ≤ 65536)

/-- A number is a command word when it has at most 68 bits: there is one length (R50, R42). -/
def isCmdNumber (w : Nat) : Bool :=
  decide (w < 2 ^ 68)

/-- The two forms of the command word (R52), and the codes that have none (R53). -/
inductive Form where
  /-- binary: the operation reads `A` and `B` -/
  | fb
  /-- unary: the operation reads `A`; `B` is ignored (R55) -/
  | fu
  /-- a reserved code: neither field is looked at (R56) -/
  | reserved
  deriving DecidableEq, Repr

/-- The form of an operation, from the column "form" of R53. -/
def Instr.form : Instr → Form
  | .add _ _ => .fb
  | .sub _ _ => .fb
  | .mul _ _ => .fb
  | .div _ _ => .fb
  | .muln _ _ => .fb
  | .divn _ _ => .fb
  | .floor _ _ => .fu
  | .ceil _ _ => .fu
  | .resolvet _ _ => .fu
  | .resolver _ _ => .fu
  | .maker _ _ => .fb
  | .maked _ _ => .fb
  | .reservedC _ _ => .reserved
  | .reservedD _ _ => .reserved
  | .reservedE _ _ => .reserved
  | .reservedF _ _ => .reserved

/-- The field `A`. -/
def Instr.fieldA : Instr → Word
  | .add a _ => a
  | .sub a _ => a
  | .mul a _ => a
  | .div a _ => a
  | .muln a _ => a
  | .divn a _ => a
  | .floor a _ => a
  | .ceil a _ => a
  | .resolvet a _ => a
  | .resolver a _ => a
  | .maker a _ => a
  | .maked a _ => a
  | .reservedC a _ => a
  | .reservedD a _ => a
  | .reservedE a _ => a
  | .reservedF a _ => a

/-- The field `B`. -/
def Instr.fieldB : Instr → Word
  | .add _ b => b
  | .sub _ b => b
  | .mul _ b => b
  | .div _ b => b
  | .muln _ b => b
  | .divn _ b => b
  | .floor _ b => b
  | .ceil _ b => b
  | .resolvet _ b => b
  | .resolver _ b => b
  | .maker _ b => b
  | .maked _ b => b
  | .reservedC _ b => b
  | .reservedD _ b => b
  | .reservedE _ b => b
  | .reservedF _ b => b

/-- The commands the assembler can write (R58): no reserved code has a mnemonic, and a form-FU line
sets `B = 0`. The unit accepts every other word too (R54, R55). -/
def Instr.assemblerWrites (i : Instr) : Bool :=
  match i.form with
  | .fb => true
  | .fu => decide (i.fieldB = 0#32)
  | .reserved => false

end Sys2Proof
end

