-- ==== Sys2Proof/Decode.lean ====
section
/-!
DEFINITION. The command word: its fields, the operation-code map, decoding and encoding
(30_encoding.md R50 to R57).
-/

namespace Sys2Proof

/-- `OP = c[67:64]` (R50). -/
def cmdOp (c : CmdWord) : OpCode := c.extractLsb' 64 4

/-- `A = c[63:32]` (R50). -/
def cmdA (c : CmdWord) : Word := c.extractLsb' 32 32

/-- `B = c[31:0]` (R50). -/
def cmdB (c : CmdWord) : Word := c.extractLsb' 0 32

/-- The command word `{OP, A, B}` (R50). -/
def cmdWord (op : OpCode) (a b : Word) : CmdWord := op ++ a ++ b

/-- The row of R53 that an operation code selects, with the fields `A` and `B`. -/
def instrOf (op : OpCode) (a b : Word) : Instr :=
  match op.toNat with
  | 0x0 => .add a b
  | 0x1 => .sub a b
  | 0x2 => .mul a b
  | 0x3 => .div a b
  | 0x4 => .muln a b
  | 0x5 => .divn a b
  | 0x6 => .floor a b
  | 0x7 => .ceil a b
  | 0x8 => .resolvet a b
  | 0x9 => .resolver a b
  | 0xA => .maker a b
  | 0xB => .maked a b
  | 0xC => .reservedC a b
  | 0xD => .reservedD a b
  | 0xE => .reservedE a b
  | _ => .reservedF a b

/-- Decoding is total on the 68-bit words, and `OP` alone selects the row (R54). -/
def decode (c : CmdWord) : Instr := instrOf (cmdOp c) (cmdA c) (cmdB c)

/-- The operation code of an instruction, from the column `OP` of R53. -/
def opCodeOf : Instr → OpCode
  | .add _ _ => 0x0#4
  | .sub _ _ => 0x1#4
  | .mul _ _ => 0x2#4
  | .div _ _ => 0x3#4
  | .muln _ _ => 0x4#4
  | .divn _ _ => 0x5#4
  | .floor _ _ => 0x6#4
  | .ceil _ _ => 0x7#4
  | .resolvet _ _ => 0x8#4
  | .resolver _ _ => 0x9#4
  | .maker _ _ => 0xA#4
  | .maked _ _ => 0xB#4
  | .reservedC _ _ => 0xC#4
  | .reservedD _ _ => 0xD#4
  | .reservedE _ _ => 0xE#4
  | .reservedF _ _ => 0xF#4

/-- The command word of an instruction (R50, R53). -/
def encode (i : Instr) : CmdWord := cmdWord (opCodeOf i) i.fieldA i.fieldB

/-- The `mask` of every row of R53: bits 67:64. -/
def tableMask : CmdWord := 0xF0000000000000000#68

/-- The `match` of the row with operation code `op` (R53). -/
def tableMatch (op : OpCode) : CmdWord := cmdWord op 0#32 0#32

/-- Why a number is no command word. -/
inductive DecodeError where
  /-- it has more than 68 bits: a command word is presented whole, 68 bits (R42, R50) -/
  | notACommandWord
  deriving DecidableEq, Repr

/-- Read a number as a command word, or reject it by name. -/
def cmdOfNumber (w : Nat) : Except DecodeError CmdWord :=
  if isCmdNumber w then .ok (BitVec.ofNat 68 w) else .error .notACommandWord

/-- The number given by the low `nbits` bits of `w`, every higher bit 0, read as a command word; bits are
numbered as the operation-code table numbers them, bit 0 the least significant of the 68. -/
def cmdOfTableWord (nbits w : Nat) : Option CmdWord :=
  match cmdOfNumber (w % 2 ^ nbits) with
  | .ok c => some c
  | .error .notACommandWord => none

/-- What the decoder reads from an instruction whose bits are `w`. -/
def decodeTableWord (nbits w : Nat) : Option Instr := (cmdOfTableWord nbits w).map decode

end Sys2Proof
end

