-- ==== Sys2Proof/Config.lean ====
section
/-!
DEFINITION. What an implementation fixes (the parameters `F` and `Q`, 00_scope.md R5, R6) and the values
the spec leaves free: the latency of an operation and the data pins while no response is offered.
-/

namespace Sys2Proof

/-- The build parameters of one unit with the proof that they are legal: a unit with `F` or `Q` out of
range does not exist (R5, R6, R8). -/
structure Params where
  /-- the fractional-bit count (R5) -/
  F : Nat
  /-- the quantization limit (R6) -/
  Q : Nat
  /-- the configuration check of R8 -/
  ok : paramsOk F Q = true := by decide
  deriving DecidableEq, Repr

/-- The default configuration, `F = 8` and `Q = 1000` (R5, R6). -/
def Params.default : Params := { F := 8, Q := 1000 }

/-- Building a unit: it fails on parameters out of range (R8, 70_reset_and_hazards.md R152 (1)). -/
def Params.build (F Q : Nat) : Option Params :=
  if h : paramsOk F Q = true then some { F := F, Q := Q, ok := h } else none

/-- FREE VALUE (log entry 1): in a unit built with `p`, the number of clock edges from the Accept of the
command word `c` taken at edge number `n` to the Compute of that operation; 0 is an implementation that
answers at the accepting edge itself. It may differ between operations, operand values and implementations,
and from one edge to another; no rule fixes it and no result depends on it (10_state.md R27,
70_reset_and_hazards.md R159). -/
opaque Config.latency (p : Params) (n : Nat) (c : CmdWord) : Nat

/-- FREE VALUE (log entry 5): `rsp_data` of a unit built with `p` in the cycle before edge number `n` while
`rsp_valid = 0`, with the command word it holds in that cycle, if any (10_state.md R29). -/
opaque Config.freeRspData (p : Params) (n : Nat) (held : Option CmdWord) : RspWord

end Sys2Proof
end

