-- ==== Sys2Proof/Machine/State.lean ====
section
/-!
DEFINITION. The state of one FX32 unit together with the host that drives its pins (10_state.md R24, R25,
R30, R33), the reasons a step can stop, and the state after reset.
-/

namespace Sys2Proof.Machine

/-- `PH` with the latch that means something in it, the sum type `IDLE | BUSY(cmd) | DONE(rsp)` of R24. -/
inductive Phase where
  /-- the unit holds no operation -/
  | idle
  /-- the unit holds the accepted command word `CMD`; `left` more edges pass before Compute (R27: a finite
  number that no rule fixes; log entry 1) -/
  | busy (cmd : CmdWord) (left : Nat)
  /-- the unit holds the response word `RSP`, which the host has not yet taken -/
  | done (rsp : RspWord)
  deriving DecidableEq, Repr

/-- The values the host drives on the input pins at one rising edge of `clk` (R25). -/
structure HostPins where
  /-- `rst`, synchronous reset, active high -/
  rst : Bool
  /-- `req_valid`: the host offers the word on `req_cmd` -/
  reqValid : Bool
  /-- `req_cmd` -/
  reqCmd : CmdWord
  /-- `rsp_ready`: the host can take a response word -/
  rspReady : Bool
  deriving DecidableEq, Repr

/-- A host that offers nothing, takes nothing and does not reset: what drives the pins when `State.drive`
has run out (log entry 3). -/
def quietPins : HostPins := { rst := false, reqValid := false, reqCmd := 0#68, rspReady := false }

/-- The unit and its host between two rising edges. `params` and `phase` are the whole state of the unit
(R24, R30); the other fields are the host's side of the interface and the count of edges. -/
structure State where
  /-- the build parameters `F` and `Q`, which no step changes (R23) -/
  params : Params
  /-- `PH` and its latch `CMD` or `RSP` (R24) -/
  phase : Phase
  /-- what the host drives at the coming edges, the next edge first; the host is unconstrained (R33), so any
  list is a host (log entry 3) -/
  drive : List HostPins
  /-- the command words accepted since the last reset, oldest first (R32, 70_reset_and_hazards.md R161;
  log entry 4) -/
  sent : List CmdWord
  /-- the response words the host has received since the last reset, oldest first (R28, R161; log entry 4) -/
  got : List RspWord
  /-- the number of the next edge, which the free values of Config are applied to (log entry 1) -/
  edge : Nat
  deriving DecidableEq, Repr

/-- Why the machine stops: it never does. No behaviour of the unit is stuck (93_implementation_defined.md;
70_reset_and_hazards.md R160, R161), and both of its exceptions are responses (60_exceptions.md R131), so
this type has no constructor and nothing raises it. -/
inductive Fault where
  deriving DecidableEq, Repr

/-- Why an instruction has no meaning. -/
inductive Refusal where
  /-- raised by an arm of `exec` whose instruction has no meaning yet (safe: nothing can be proved of it);
  no arm does -/
  | notModelled (mnemonic : String)
  deriving DecidableEq, Repr

/-- A unit built with `p`, right after reset, before a host whose coming drive is `d`: `PH = IDLE`, no
latch holds anything, nothing has been accepted or received (R30, 70_reset_and_hazards.md R151). -/
def State.resetWith (p : Params) (d : List HostPins) : State :=
  { params := p, phase := .idle, drive := d, sent := [], got := [], edge := 0 }

/-- The machine right after reset: the default build (00_scope.md R5, R6) and a host that drives nothing. -/
def State.reset : State := State.resetWith Params.default []

end Sys2Proof.Machine
end

