-- ==== Sys2Proof/Machine/Operands.lean ====
section
/-!
DEFINITION. How an operand field is read and a result narrowed: the integer readings and operators of
00_scope.md R11 and R12, and the constants derived from `F` (R7). Intermediates are unbounded integers; a
value is narrowed only where `wrap32` is written.
-/

namespace Sys2Proof.Machine

/-- `u32(x)`, the unsigned reading (R11); how a field "ufrac" is read (30_encoding.md R52). -/
abbrev u32 (x : Word) : Nat := x.toNat

/-- `s32(x)`, the two's-complement reading (R11); how a field "scaled" or "int" is read (R52). -/
abbrev s32 (x : Word) : Int := x.toInt

/-- `wrap32(n)`, the word whose unsigned reading is `n mod 2^32` (R11); the document's `narrow`. -/
abbrev wrap32 (n : Int) : Word := BitVec.ofInt 32 n

/-- `floor_div(n, d)` for `d > 0`: the greatest `q` with `q * d ≤ n` (R12). -/
def floorDiv (n d : Int) : Int := n / d

/-- `n >> k` on an integer, the arithmetic right shift (R12). -/
def shiftRight (n : Int) (k : Nat) : Int := floorDiv n (2 ^ k)

/-- `trunc_div(n, d)` for `d ≠ 0`: the quotient rounded toward zero (R12). -/
def truncDiv (n d : Int) : Int := n.sign * d.sign * floorDiv n.natAbs d.natAbs

/-- `asr32(x, k)`: the sign bit is copied into the vacated high bits (R12). -/
def asr32 (x : Word) (k : Nat) : Word := wrap32 (shiftRight (s32 x) k)

/-- `shl32(x, k)`: bits shifted past bit 31 are lost, zeros enter at bit 0 (R12). -/
def shl32 (x : Word) (k : Nat) : Word := wrap32 (u32 x * 2 ^ k)

/-- `ONE = 2^F` as a 32-bit pattern (R7). -/
def onePattern (p : Params) : Word := wrap32 (2 ^ p.F)

/-- `HALF = 2^(F-1)` as a 32-bit pattern (R7). -/
def halfPattern (p : Params) : Word := wrap32 (2 ^ (p.F - 1))

/-- `MASK = ONE - 1` as a 32-bit pattern (R7). -/
def maskPattern (p : Params) : Word := wrap32 (2 ^ p.F - 1)

end Sys2Proof.Machine
end

