-- ==== Sys2Proof/Machine/Flags.lean ====
section
/-!
DEFINITION. The status field (10_state.md R22, 60_exceptions.md R130), the two exceptions, and the
predicates on overflow and exactness that the spec states and the unit neither computes nor reports
(R91, R93, R101, R111, R124, 70_reset_and_hazards.md R156).
-/

namespace Sys2Proof.Machine

/-- The names of the codes of `STAT` that are produced (R51, R130; code 3 never is). -/
inductive Status where
  /-- no exception -/
  | ok
  /-- `DivideByZero` -/
  | divByZero
  /-- `IllegalOperation` -/
  | illegalOp
  deriving DecidableEq, Repr

/-- The value of the field `STAT` (R51). -/
def statusCode : Status → BitVec 2
  | .ok => 0#2
  | .divByZero => 1#2
  | .illegalOp => 2#2

/-- The two synchronous exceptions (R130). -/
inductive Exc where
  /-- raised by DIV and DIVN when `B = 0` (R132) -/
  | divideByZero
  /-- raised by the reserved codes (R133) -/
  | illegalOperation
  deriving DecidableEq, Repr

/-- `code(<Exception>)` (R130). -/
def excStatus : Exc → Status
  | .divideByZero => .divByZero
  | .illegalOperation => .illegalOp

/-- `-2^31 ≤ n ≤ 2^31 - 1`: `wrap32` does not change `n`. -/
abbrev Fits32 (n : Int) : Prop := -2 ^ 31 ≤ n ∧ n ≤ 2 ^ 31 - 1

/-- A whole part in range: `-2^(31-F) ≤ n ≤ 2^(31-F) - 1` (R70, R156). -/
abbrev WholeInRange (p : Params) (n : Int) : Prop := -2 ^ (31 - p.F) ≤ n ∧ n ≤ 2 ^ (31 - p.F) - 1

/-- `add_ovf(A, B)`, by the sign bits (R91). -/
def addOvf (a b : Word) : Prop :=
  a.msb = b.msb ∧ (wrap32 (s32 a + s32 b)).msb ≠ a.msb

/-- `sub_ovf(A, B)`, by the sign bits (R93). -/
def subOvf (a b : Word) : Prop :=
  a.msb ≠ b.msb ∧ (wrap32 (s32 a - s32 b)).msb ≠ a.msb

/-- `mul_ovf(A, B)` (R101). -/
def mulOvf (p : Params) (a b : Word) : Prop :=
  ¬ Fits32 (floorDiv (s32 a * s32 b) (2 ^ p.F))

/-- `div_ovf(A, B)`, for `B ≠ 0` (R111). -/
def divOvf (p : Params) (a b : Word) : Prop :=
  ¬ Fits32 (truncDiv (s32 a * 2 ^ p.F) (s32 b))

/-- `ceil_ovf(A)` (R124). -/
def ceilOvf (p : Params) (a : Word) : Prop := s32 a > 2 ^ 31 - 2 ^ p.F

/-- The exactness condition of an operation, as R156 collects them. The reserved codes have none. -/
def exactCond (p : Params) : Instr → Prop
  | .add a b => Fits32 (s32 a + s32 b)
  | .sub a b => Fits32 (s32 a - s32 b)
  | .mul a b => Fits32 (floorDiv (s32 a * s32 b) (2 ^ p.F))
  | .div a b => s32 b ≠ 0 ∧ Fits32 (truncDiv (s32 a * 2 ^ p.F) (s32 b))
  | .muln a b => Fits32 (s32 a * s32 b)
  | .divn a b => s32 b ≠ 0 ∧ WholeInRange p (s32 a) ∧ ¬ (s32 a * 2 ^ p.F = -2 ^ 31 ∧ s32 b = -1)
  | .floor _ _ => True
  | .ceil a _ => s32 a ≤ 2 ^ 31 - 2 ^ p.F
  | .resolvet _ _ => True
  | .resolver a _ => s32 a ≤ 2 ^ 31 - 1 - 2 ^ (p.F - 1)
  | .maker a b => WholeInRange p (s32 a) ∧ (u32 b : Int) ≤ 2 ^ p.F - 1
  | .maked a b => WholeInRange p (s32 a) ∧ u32 b < p.Q
  | .reservedC _ _ => False
  | .reservedD _ _ => False
  | .reservedE _ _ => False
  | .reservedF _ _ => False

end Sys2Proof.Machine
end

