-- ==== Sys2Proof/Machine/Ops.lean ====
section
/-!
DEFINITION. The named operations over the state: the response of an operation, taking an exception, and
the transitions Accept, wait, Compute's result, Deliver and Reset (10_state.md R26 to R28,
60_exceptions.md R131, 70_reset_and_hazards.md R150).
-/

namespace Sys2Proof.Machine

/-- What an operation answers: `STAT` and `R` (30_encoding.md R51). -/
structure Response where
  stat : Status
  r : Word
  deriving DecidableEq, Repr

/-- The response word `{STAT[33:32], R[31:0]}` (R51). -/
def rspWord (x : Response) : RspWord := statusCode x.stat ++ x.r

/-- The field `STAT` of a response word (R51). -/
def rspStat (w : RspWord) : BitVec 2 := w.extractLsb' 32 2

/-- The field `R` of a response word (R51). -/
def rspR (w : RspWord) : Word := w.extractLsb' 0 32

/-- An operation that does not raise ends with `STAT = 0` (00_scope.md R13). -/
def answerOk (r : Word) : Response := { stat := .ok, r := r }

/-- TAKING AN EXCEPTION, whole (R131, R137): the operation computes nothing further, `STAT` is the
exception's code and `R` is zero. Nothing is saved, no mode changes and control goes nowhere, so there is
no return from it either (R138): the response is delivered like any other. -/
def raiseExc (e : Exc) : Response := { stat := excStatus e, r := 0#32 }

/-- `RSP <- x; PH <- DONE`, the state change of Compute (R27). -/
def respond (x : Response) (s : State) : State := { s with phase := .done (rspWord x) }

/-- How every meaning ends: with its response in the latch. -/
def finish (x : Response) (s : State) : Host.Outcome State Fault Refusal := .next (respond x s)

/-- What the host drives at the coming edge. -/
def pinsOf (s : State) : HostPins :=
  match s.drive with
  | [] => quietPins
  | p :: _ => p

/-- The state with that edge taken from the host's drive, before any transition at it. -/
def nextEdge (s : State) : State := { s with drive := s.drive.tail, edge := s.edge + 1 }

/-- Accept (R26): `CMD <- req_cmd; PH <- BUSY`, with `left` edges still to wait; the host notes the word. -/
def accept (c : CmdWord) (left : Nat) (s : State) : State :=
  { s with phase := .busy c left, sent := s.sent ++ [c] }

/-- An edge in BUSY at which Compute is not yet taken. -/
def waitIn (c : CmdWord) (left : Nat) (s : State) : State := { s with phase := .busy c left }

/-- Deliver (R28): the host receives `RSP` and `PH <- IDLE`. -/
def deliver (r : RspWord) (s : State) : State := { s with phase := .idle, got := s.got ++ [r] }

/-- Reset (R150): `PH <- IDLE`, an operation in flight is dropped, `F` and `Q` stay; the host's record of
the run begins anew (R161). -/
def takeReset (s : State) : State := { s with phase := .idle, sent := [], got := [] }

end Sys2Proof.Machine
end

