-- ==== Sys2Proof/Machine/AddSub.lean ====
section
/-!
DEFINITION. The adder/subtractor (42_addsub.md): addition and subtraction of the scaled representations
in the 32-bit backing integer, which wraps. `F` is not read.
-/

namespace Sys2Proof.Machine

/-- ADD (R90). -/
def fxAdd (a b : Word) : Response := answerOk (wrap32 (s32 a + s32 b))

/-- SUB (R92): minuend `A`, subtrahend `B`. -/
def fxSub (a b : Word) : Response := answerOk (wrap32 (s32 a - s32 b))

/-- The meaning of ADD. -/
def execAdd (a b : Word) (s : State) : Host.Outcome State Fault Refusal := finish (fxAdd a b) s

/-- The meaning of SUB. -/
def execSub (a b : Word) (s : State) : Host.Outcome State Fault Refusal := finish (fxSub a b) s

end Sys2Proof.Machine
end

