-- ==== Sys2Proof/Machine/Divide.lean ====
section
/-!
DEFINITION. The divider (44_divide.md): DIV with the exact pre-scaled numerator, DIVN with the numerator
shifted in 32 bits. Both test the divisor first (60_exceptions.md R132) and round the quotient toward zero.
-/

namespace Sys2Proof.Machine

/-- DIV (R110). -/
def fxDiv (p : Params) (a b : Word) : Response :=
  if u32 b = 0 then raiseExc .divideByZero
  else
    let N := s32 a * 2 ^ p.F
    let Qt := truncDiv N (s32 b)
    answerOk (wrap32 Qt)

/-- DIVN (R112). The one overflowing 32-bit quotient, `-2^31 / -1`, wraps. -/
def fxDivn (p : Params) (a b : Word) : Response :=
  if u32 b = 0 then raiseExc .divideByZero
  else
    let NSH := shl32 a p.F
    let Qt := truncDiv (s32 NSH) (s32 b)
    answerOk (wrap32 Qt)

/-- The meaning of DIV. -/
def execDiv (a b : Word) (s : State) : Host.Outcome State Fault Refusal := finish (fxDiv s.params a b) s

/-- The meaning of DIVN. -/
def execDivn (a b : Word) (s : State) : Host.Outcome State Fault Refusal := finish (fxDivn s.params a b) s

end Sys2Proof.Machine
end

