-- ==== Sys2Proof/Machine/Make.lean ====
section
/-!
DEFINITION. The constructors (40_make.md): a scaled value from a whole part and a fraction, given as raw
bits or in units of `1/Q`. A fraction out of its domain is neither masked nor refused (92_eei_decisions.md
D13).
-/

namespace Sys2Proof.Machine

/-- MAKER (R70). -/
def fxMaker (p : Params) (a b : Word) : Response := answerOk (shl32 a p.F ||| b)

/-- The rescaled fraction of MAKED, over unbounded integers, left to right (R72, 90_conflicts.md C3). -/
def fracBits (p : Params) (b : Word) : Int :=
  let P : Int := u32 b * 2 ^ p.F * 65536
  let q := floorDiv P p.Q
  shiftRight q 16

/-- MAKED (R72). -/
def fxMaked (p : Params) (a b : Word) : Response := answerOk (shl32 a p.F ||| wrap32 (fracBits p b))

/-- The meaning of MAKER. -/
def execMaker (a b : Word) (s : State) : Host.Outcome State Fault Refusal := finish (fxMaker s.params a b) s

/-- The meaning of MAKED. -/
def execMaked (a b : Word) (s : State) : Host.Outcome State Fault Refusal := finish (fxMaked s.params a b) s

end Sys2Proof.Machine
end

