-- ==== Sys2Proof/Machine/Multiply.lean ====
section
/-!
DEFINITION. The multiplier (43_multiply.md): MUL with the exact product, MULN with the product wrapped to
32 bits before the shift.
-/

namespace Sys2Proof.Machine

/-- MUL (R100): exact product, arithmetic shift right by `F`, narrow. -/
def fxMul (p : Params) (a b : Word) : Response :=
  let P := s32 a * s32 b
  let S := shiftRight P p.F
  answerOk (wrap32 S)

/-- MULN (R102): the low 32 bits of the product, then the arithmetic shift of those. -/
def fxMuln (p : Params) (a b : Word) : Response :=
  let P32 := wrap32 (s32 a * s32 b)
  answerOk (asr32 P32 p.F)

/-- The meaning of MUL. -/
def execMul (a b : Word) (s : State) : Host.Outcome State Fault Refusal := finish (fxMul s.params a b) s

/-- The meaning of MULN. -/
def execMuln (a b : Word) (s : State) : Host.Outcome State Fault Refusal := finish (fxMuln s.params a b) s

end Sys2Proof.Machine
end

