-- ==== Sys2Proof/Machine/Reserved.lean ====
section
/-!
DEFINITION. The reserved operation codes (30_encoding.md R56): each raises IllegalOperation, whatever `A`
and `B` are (60_exceptions.md R133).
-/

namespace Sys2Proof.Machine

/-- The response to a reserved code (R56). -/
def fxReserved : Response := raiseExc .illegalOperation

/-- The meaning of code 0xC. -/
def execReservedC (s : State) : Host.Outcome State Fault Refusal := finish fxReserved s

/-- The meaning of code 0xD. -/
def execReservedD (s : State) : Host.Outcome State Fault Refusal := finish fxReserved s

/-- The meaning of code 0xE. -/
def execReservedE (s : State) : Host.Outcome State Fault Refusal := finish fxReserved s

/-- The meaning of code 0xF. -/
def execReservedF (s : State) : Host.Outcome State Fault Refusal := finish fxReserved s

end Sys2Proof.Machine
end

