-- ==== Sys2Proof/Machine/Resolve.lean ====
section
/-!
DEFINITION. The resolves (41_resolve.md): from a scaled value to an integer, toward negative infinity and
to nearest. `B` is ignored (30_encoding.md R55).
-/

namespace Sys2Proof.Machine

/-- RESOLVET (R80). -/
def fxResolvet (p : Params) (a : Word) : Response := answerOk (asr32 a p.F)

/-- RESOLVER (R82): the addition of `HALF` is in the 32-bit backing integer and wraps. -/
def fxResolver (p : Params) (a : Word) : Response :=
  let t := wrap32 (s32 a + u32 (halfPattern p))
  answerOk (asr32 t p.F)

/-- The meaning of RESOLVET. -/
def execResolvet (a : Word) (s : State) : Host.Outcome State Fault Refusal := finish (fxResolvet s.params a) s

/-- The meaning of RESOLVER. -/
def execResolver (a : Word) (s : State) : Host.Outcome State Fault Refusal := finish (fxResolver s.params a) s

end Sys2Proof.Machine
end

