-- ==== Sys2Proof/Machine/Rounding.lean ====
section
/-!
DEFINITION. The rounding logic (45_rounding.md): FLOOR and CEIL, from a scaled value to a scaled value
whose fraction is zero. `B` is ignored (30_encoding.md R55).
-/

namespace Sys2Proof.Machine

/-- FLOOR (R120). -/
def fxFloor (p : Params) (a : Word) : Response := answerOk (a &&& ~~~ maskPattern p)

/-- CEIL (R122): the addition is in the 32-bit backing integer and wraps. -/
def fxCeil (p : Params) (a : Word) : Response :=
  let t := wrap32 (s32 a + u32 (maskPattern p))
  answerOk (t &&& ~~~ maskPattern p)

/-- The meaning of FLOOR. -/
def execFloor (a : Word) (s : State) : Host.Outcome State Fault Refusal := finish (fxFloor s.params a) s

/-- The meaning of CEIL. -/
def execCeil (a : Word) (s : State) : Host.Outcome State Fault Refusal := finish (fxCeil s.params a) s

end Sys2Proof.Machine
end

