-- ==== Sys2Proof/Machine/Dispatch.lean ====
section
/-!
DEFINITION. One arm per operation, each one call of its meaning.
-/

namespace Sys2Proof.Machine

/-- Compute (10_state.md R27): the operation's rule gives the response latch its value. -/
def exec (i : Instr) (s : State) : Host.Outcome State Fault Refusal :=
  match i with
  | .add a b => Sys2Proof.Machine.execAdd a b s
  | .sub a b => Sys2Proof.Machine.execSub a b s
  | .mul a b => Sys2Proof.Machine.execMul a b s
  | .div a b => Sys2Proof.Machine.execDiv a b s
  | .muln a b => Sys2Proof.Machine.execMuln a b s
  | .divn a b => Sys2Proof.Machine.execDivn a b s
  | .floor a _ => Sys2Proof.Machine.execFloor a s
  | .ceil a _ => Sys2Proof.Machine.execCeil a s
  | .resolvet a _ => Sys2Proof.Machine.execResolvet a s
  | .resolver a _ => Sys2Proof.Machine.execResolver a s
  | .maker a b => Sys2Proof.Machine.execMaker a b s
  | .maked a b => Sys2Proof.Machine.execMaked a b s
  | .reservedC _ _ => Sys2Proof.Machine.execReservedC s
  | .reservedD _ _ => Sys2Proof.Machine.execReservedD s
  | .reservedE _ _ => Sys2Proof.Machine.execReservedE s
  | .reservedF _ _ => Sys2Proof.Machine.execReservedF s

end Sys2Proof.Machine
end

