-- ==== Sys2Proof/Machine/Handshake.lean ====
section
/-!
DEFINITION. The pins and the transition taken at a rising edge (10_state.md R25 to R29,
70_reset_and_hazards.md R150).
-/

namespace Sys2Proof.Machine

/-- `req_ready = (PH == IDLE)` (R29). -/
def reqReady (s : State) : Bool :=
  match s.phase with
  | .idle => true
  | .busy _ _ => false
  | .done _ => false

/-- `rsp_valid = (PH == DONE)` (R29). -/
def rspValid (s : State) : Bool :=
  match s.phase with
  | .idle => false
  | .busy _ _ => false
  | .done _ => true

/-- `rsp_data = RSP` in DONE, an unspecified value otherwise (R29; FREE VALUE, log entry 5). -/
def rspData (s : State) : RspWord :=
  match s.phase with
  | .idle => Config.freeRspData s.params s.edge none
  | .busy c _ => Config.freeRspData s.params s.edge (some c)
  | .done r => r

/-- What happens at an edge: the state moves on, or Compute runs the command word in a state. -/
inductive Action where
  | move (t : State)
  | compute (c : CmdWord) (t : State)
  deriving DecidableEq, Repr

/-- Accept at the coming edge, which has latency `n`: with `n = 0` Compute is taken at the same edge
(R27: an implementation may take zero cycles). -/
def acceptAction (c : CmdWord) (n : Nat) (t : State) : Action :=
  match n with
  | 0 => .compute c (accept c 0 t)
  | m + 1 => .move (accept c m t)

/-- An edge in BUSY: Compute when no wait is left (R27). -/
def busyAction (c : CmdWord) (left : Nat) (t : State) : Action :=
  match left with
  | 0 => .compute c t
  | m + 1 => .move (waitIn c m t)

/-- The transition at the coming edge. Reset has priority (R150); Accept needs IDLE and `req_valid` (R26);
Deliver needs DONE and `rsp_ready` (R28); an offer outside IDLE is ignored (R26). -/
def edgeAction (s : State) : Action :=
  let pins := pinsOf s
  let t := nextEdge s
  if pins.rst then .move (takeReset t)
  else
    match s.phase with
    | .idle =>
      if pins.reqValid then acceptAction pins.reqCmd (Config.latency s.params s.edge pins.reqCmd) t
      else .move t
    | .busy c left => busyAction c left t
    | .done r => if pins.rspReady then .move (deliver r t) else .move t

/-- The drive with `rst` low at the coming edge and nothing else changed. -/
def releaseReset (d : List HostPins) : List HostPins :=
  match d with
  | [] => []
  | p :: ps => { p with rst := false } :: ps

/-- `s` with the command word accepted and no wait left, `rst` low at the coming edge: the next step
computes it (log entry 8). -/
def placeCommand (c : CmdWord) (s : State) : State :=
  accept c 0 { s with drive := releaseReset s.drive }

end Sys2Proof.Machine
end

