-- ==== Sys2Proof/Machine/Step.lean ====
section
/-!
DEFINITION. One step: one rising edge of `clk` (10_state.md R25 to R28).
-/

namespace Sys2Proof.Machine

/-- The transition the handshake gives; where it is Compute, the decoded command is executed (R27). -/
def step (s : State) : Host.Outcome State Fault Refusal :=
  match edgeAction s with
  | .move t => .next t
  | .compute c t => exec (decode c) t

/-- `s` with the command word whose bits are `w` accepted, no wait left and `rst` low at the next edge
(log entry 8); unchanged where `w` is no command word. -/
def State.withFetchWord (s : State) (nbits w : Nat) : State :=
  match cmdOfTableWord nbits w with
  | some c => placeCommand c s
  | none => s

end Sys2Proof.Machine
end

