-- ==== Sys2Proof/Machine/FxExec.lean ====
section
/-!
DEFINITION. `fx_exec` (00_scope.md R14): the response as a pure, total function of the parameters and the
command word. `exec` and it call the same rules; that `exec` answers with it is `exec_eq_finish_fxExec`.
-/

namespace Sys2Proof.Machine

/-- `fx_exec(F, Q, OP, A, B)` on a decoded command (R14). -/
def fxExec (p : Params) (i : Instr) : Response :=
  match i with
  | .add a b => fxAdd a b
  | .sub a b => fxSub a b
  | .mul a b => fxMul p a b
  | .div a b => fxDiv p a b
  | .muln a b => fxMuln p a b
  | .divn a b => fxDivn p a b
  | .floor a _ => fxFloor p a
  | .ceil a _ => fxCeil p a
  | .resolvet a _ => fxResolvet p a
  | .resolver a _ => fxResolver p a
  | .maker a b => fxMaker p a b
  | .maked a b => fxMaked p a b
  | .reservedC _ _ => fxReserved
  | .reservedD _ _ => fxReserved
  | .reservedE _ _ => fxReserved
  | .reservedF _ _ => fxReserved

/-- The response word to a command word (R14, 10_state.md R27). -/
def answer (p : Params) (c : CmdWord) : RspWord := rspWord (fxExec p (decode c))

end Sys2Proof.Machine
end

