-- ==== Sys2Proof/Machine/Asm.lean ====
section
/-!
DEFINITION. The assembler lines of 30_encoding.md R58 and the pseudo-operation FROMINT (R59), as terms: the
command a line stands for, and the responses to a list of lines handled top to bottom. No part of the
unit; it is how a host program is written down.
-/

namespace Sys2Proof.Machine

/-- `mnemonic` (R58). -/
inductive AsmMnemonic where
  | add | sub | mul | div | muln | divn | floor | ceil | resolvet | resolver | maker | maked | fromint
  deriving DecidableEq, Repr

/-- `operand` (R58). -/
inductive AsmOperand where
  /-- "0x" and 1 to 8 hexadecimal digits, as the number they write -/
  | hexword (w : Nat)
  /-- a decimal integer, assembled as `wrap32(n)`, `-2^31 ≤ n < 2^32` -/
  | integer (n : Int)
  /-- the `R` bound to the name by an earlier line -/
  | name (x : String)
  deriving DecidableEq, Repr

/-- `line`: an optional name to bind, a mnemonic, its operands (R58). -/
structure AsmLine where
  binds : Option String
  mnemonic : AsmMnemonic
  operands : List AsmOperand
  deriving DecidableEq, Repr

/-- The names bound so far, the latest first. -/
abbrev AsmEnv := List (String × Word)

/-- The word an operand stands for; none where R58 gives it no word. -/
def operandWord (env : AsmEnv) (o : AsmOperand) : Option Word :=
  match o with
  | .hexword w => if w < 2 ^ 32 then some (BitVec.ofNat 32 w) else none
  | .integer n => if -2 ^ 31 ≤ n ∧ n < 2 ^ 32 then some (wrap32 n) else none
  | .name x => env.lookup x

/-- The operands' words, in order; none where one of them has none. -/
def operandWords (env : AsmEnv) (os : List AsmOperand) : Option (List Word) :=
  match os with
  | [] => some []
  | o :: rest =>
    match operandWord env o, operandWords env rest with
    | some w, some ws => some (w :: ws)
    | _, _ => none

/-- The command of a mnemonic on its operands: two for form FB, one for form FU with `B = 0`, one for
FROMINT, which is MAKER with `B = 0` (R58, R59). -/
def commandOf (m : AsmMnemonic) (ws : List Word) : Option Instr :=
  match m, ws with
  | .add, [a, b] => some (.add a b)
  | .sub, [a, b] => some (.sub a b)
  | .mul, [a, b] => some (.mul a b)
  | .div, [a, b] => some (.div a b)
  | .muln, [a, b] => some (.muln a b)
  | .divn, [a, b] => some (.divn a b)
  | .floor, [a] => some (.floor a 0#32)
  | .ceil, [a] => some (.ceil a 0#32)
  | .resolvet, [a] => some (.resolvet a 0#32)
  | .resolver, [a] => some (.resolver a 0#32)
  | .maker, [a, b] => some (.maker a b)
  | .maked, [a, b] => some (.maked a b)
  | .fromint, [a] => some (.maker a 0#32)
  | _, _ => none

/-- The command a line stands for under the names bound so far (R58). -/
def assembleLine (env : AsmEnv) (l : AsmLine) : Option Instr :=
  match operandWords env l.operands with
  | some ws => commandOf l.mnemonic ws
  | none => none

/-- `name =` binds the field `R` of the line's response (R58). -/
def bindName (env : AsmEnv) (l : AsmLine) (x : Response) : AsmEnv :=
  match l.binds with
  | some n => (n, x.r) :: env
  | none => env

/-- The responses to a list of lines on a unit built with `p`, top to bottom, each line assembled after the
response to the one before it (R58); none where a line does not assemble. -/
def runLines (p : Params) (env : AsmEnv) (ls : List AsmLine) : Option (List Response) :=
  match ls with
  | [] => some []
  | l :: rest =>
    match assembleLine env l with
    | none => none
    | some i =>
      match runLines p (bindName env l (fxExec p i)) rest with
      | none => none
      | some xs => some (fxExec p i :: xs)

end Sys2Proof.Machine
end

