-- ==== Sys2Proof/Machine/AsmText.lean ====
section
/-!
DEFINITION. The text of assembler lines, command words and response words (30_encoding.md R58,
95_test_vectors.md section 0), as lists of characters: reading a line and writing a word.
-/

namespace Sys2Proof.Machine

/-- The pieces of a line. -/
inductive AsmToken where
  /-- a run of letters, digits and underscores: a name, a mnemonic or an unsigned number -/
  | word (cs : List Char)
  | equals
  | comma
  | minus
  deriving DecidableEq, Repr

/-- A character of a name, a mnemonic or a number. -/
def isWordChar (c : Char) : Bool := c.isAlphanum || c == '_'

/-- The characters collected so far, latest first, as one more piece before `ts`. -/
def flushWord (acc : List Char) (ts : List AsmToken) : List AsmToken :=
  match acc with
  | [] => ts
  | c :: cs => .word (c :: cs).reverse :: ts

/-- Cut a line into pieces: blanks separate, a semicolon starts a comment (log entry 11). -/
def lexLine (acc : List Char) (cs : List Char) : Option (List AsmToken) :=
  match cs with
  | [] => some (flushWord acc [])
  | c :: rest =>
    if isWordChar c then lexLine (c :: acc) rest
    else if c == ' ' then (lexLine [] rest).map (flushWord acc)
    else if c == ';' then some (flushWord acc [])
    else if c == '=' then (lexLine [] rest).map fun ts => flushWord acc (.equals :: ts)
    else if c == ',' then (lexLine [] rest).map fun ts => flushWord acc (.comma :: ts)
    else if c == '-' then (lexLine [] rest).map fun ts => flushWord acc (.minus :: ts)
    else none

/-- The value of a digit, below 16. -/
def digitValue (c : Char) : Option Nat :=
  if c.isDigit then some (c.toNat - '0'.toNat)
  else if 'a'.toNat ≤ c.toNat ∧ c.toNat ≤ 'f'.toNat then some (c.toNat - 'a'.toNat + 10)
  else if 'A'.toNat ≤ c.toNat ∧ c.toNat ≤ 'F'.toNat then some (c.toNat - 'A'.toNat + 10)
  else none

/-- The number that digits of a base write after the digits of `n`; none where one is no digit of it. -/
def readDigits (base n : Nat) (cs : List Char) : Option Nat :=
  match cs with
  | [] => some n
  | c :: rest =>
    match digitValue c with
    | some d => if d < base then readDigits base (n * base + d) rest else none
    | none => none

/-- Decimal digits, at least one (R58 "integer"). -/
def readDecimal (cs : List Char) : Option Nat :=
  match cs with
  | [] => none
  | c :: rest => readDigits 10 0 (c :: rest)

/-- A name: a letter followed by letters, digits or underscores (R58 "name"). -/
def isName (cs : List Char) : Bool :=
  match cs with
  | [] => false
  | c :: rest => c.isAlpha && rest.all isWordChar

/-- The operand one unsigned piece stands for (R58 "operand"). -/
def readOperand (cs : List Char) : Option AsmOperand :=
  match cs with
  | '0' :: 'x' :: ds =>
    if 1 ≤ ds.length ∧ ds.length ≤ 8 then (readDigits 16 0 ds).map AsmOperand.hexword else none
  | cs =>
    if isName cs then some (.name (String.ofList cs))
    else (readDecimal cs).map fun n => .integer n

/-- An operand at the head of the pieces, with the pieces after it. -/
def takeOperand (ts : List AsmToken) : Option (AsmOperand × List AsmToken) :=
  match ts with
  | .word cs :: rest => (readOperand cs).map fun o => (o, rest)
  | .minus :: .word cs :: rest => (readDecimal cs).map fun n => (.integer (-n), rest)
  | _ => none

/-- `operand [ "," operand ]` to the end of the line (R58 "line"). -/
def readOperands (ts : List AsmToken) : Option (List AsmOperand) :=
  match takeOperand ts with
  | some (o, []) => some [o]
  | some (o, .comma :: rest) =>
    match takeOperand rest with
    | some (o', []) => some [o, o']
    | _ => none
  | _ => none

/-- The spelling of a mnemonic (R58). -/
def spelling : AsmMnemonic → List Char
  | .add => ['A', 'D', 'D']
  | .sub => ['S', 'U', 'B']
  | .mul => ['M', 'U', 'L']
  | .div => ['D', 'I', 'V']
  | .muln => ['M', 'U', 'L', 'N']
  | .divn => ['D', 'I', 'V', 'N']
  | .floor => ['F', 'L', 'O', 'O', 'R']
  | .ceil => ['C', 'E', 'I', 'L']
  | .resolvet => ['R', 'E', 'S', 'O', 'L', 'V', 'E', 'T']
  | .resolver => ['R', 'E', 'S', 'O', 'L', 'V', 'E', 'R']
  | .maker => ['M', 'A', 'K', 'E', 'R']
  | .maked => ['M', 'A', 'K', 'E', 'D']
  | .fromint => ['F', 'R', 'O', 'M', 'I', 'N', 'T']

/-- All mnemonics (R58 "mnemonic"). -/
def allMnemonics : List AsmMnemonic :=
  [.add, .sub, .mul, .div, .muln, .divn, .floor, .ceil, .resolvet, .resolver, .maker, .maked, .fromint]

/-- The mnemonic with a spelling. -/
def readMnemonic (cs : List Char) : Option AsmMnemonic :=
  allMnemonics.find? fun m => spelling m == cs

/-- A mnemonic and its operands, to the end of the line. -/
def readRest (binds : Option String) (m : List Char) (ts : List AsmToken) : Option AsmLine :=
  match readMnemonic m, readOperands ts with
  | some k, some os => some { binds := binds, mnemonic := k, operands := os }
  | _, _ => none

/-- Read a line (R58 "line"); none where the text is no line. -/
def readLine (cs : List Char) : Option AsmLine :=
  match lexLine [] cs with
  | some (.word n :: .equals :: .word m :: ts) =>
    if isName n then readRest (some (String.ofList n)) m ts else none
  | some (.word m :: ts) => readRest none m ts
  | _ => none

/-- Read the lines of a program; none where one of them is no line. -/
def readLines (ls : List (List Char)) : Option (List AsmLine) :=
  match ls with
  | [] => some []
  | l :: rest =>
    match readLine l, readLines rest with
    | some x, some xs => some (x :: xs)
    | _, _ => none

/-- The hexadecimal digit of a number below 16, capitals above 9 as the spec prints them. -/
def hexDigit (n : Nat) : Char :=
  if n < 10 then Char.ofNat ('0'.toNat + n) else Char.ofNat ('A'.toNat + (n - 10))

/-- The low `k` hexadecimal digits of a number, the most significant first. -/
def hexDigits (k n : Nat) : List Char :=
  match k with
  | 0 => []
  | k + 1 => hexDigit (n / 16 ^ k % 16) :: hexDigits k n

/-- A command word as the spec prints it: 17 hexadecimal digits, `OP`, `A`, `B` in that order (R58). -/
def cmdText (c : CmdWord) : List Char := '0' :: 'x' :: hexDigits 17 c.toNat

/-- A response word as the spec prints it: 9 hexadecimal digits, `STAT` and `R` (95_test_vectors.md section 0). -/
def rspText (w : RspWord) : List Char := '0' :: 'x' :: hexDigits 9 w.toNat

/-- The text of the command word that the text of a line stands for, under the names bound so far (R58). -/
def assembleText (env : AsmEnv) (cs : List Char) : Option (List Char) :=
  match readLine cs with
  | some l => (assembleLine env l).map fun i => cmdText (encode i)
  | none => none

end Sys2Proof.Machine
end

