-- ==== Sys2Proof/Safety.lean ====
section
/-!
DEFINITION. What claims about the unit speak of: the real value of a word, legal response words, and the
pairing of responses with commands.
-/

namespace Sys2Proof.Machine

/-- `real(v) = s32(v) / 2^F`, an exact rational (00_scope.md R10). -/
def real (p : Params) (v : Word) : ℚ := (s32 v : ℚ) / 2 ^ p.F

/-- A response word the unit may produce: `STAT` is never 3, and `R` is zero when `STAT` is not zero
(30_encoding.md R51, 60_exceptions.md R130, R131). -/
def LegalRsp (w : RspWord) : Prop := rspStat w ≠ 3#2 ∧ (rspStat w ≠ 0#2 → rspR w = 0#32)

/-- The response latch and every response the host received are legal. -/
def ResponsesLegal (s : State) : Prop :=
  (∀ r, s.phase = .done r → LegalRsp r) ∧ ∀ r ∈ s.got, LegalRsp r

/-- The response the unit owes the host: that of the command in BUSY, or the word in DONE. -/
def owed (s : State) : List RspWord :=
  match s.phase with
  | .idle => []
  | .busy c _ => [answer s.params c]
  | .done r => [r]

/-- What the host has received, and what is owed, is `fx_exec` of the commands accepted since the last
reset, one response each, in their order (10_state.md R32). -/
def Paired (s : State) : Prop := s.got ++ owed s = s.sent.map (answer s.params)

end Sys2Proof.Machine
end

