-- ==== Sys2Proof/Certificates/Slice0/Obligations.lean ====
section
/-!
DEFINITION. The statements for the provers. A response word is written out as `STAT ++ R`; that an
operation answers `.next { s with phase := .done (…) }` says its result, that it completes, and that it
changes nothing but the response latch. The clause "for every state" takes in every `F`, every `Q`, every
host drive and every history, since they are fields of the state.
-/

open Sys2Proof Sys2Proof.Machine

/-! ### Encoding -/

/-- The three fields of the 68-bit command word (R50), and the model's reading of a number as a command word:
more than 68 bits are rejected by name, every smaller number is read as it stands (log entry 10). -/
def Obligations.CommandWordHasThreeFields : Prop :=
  (∀ c : CmdWord,
    (opCodeOf (decode c)).toNat = c.toNat / 2 ^ 64 ∧
    (decode c).fieldA.toNat = c.toNat / 2 ^ 32 % 2 ^ 32 ∧
    (decode c).fieldB.toNat = c.toNat % 2 ^ 32) ∧
  (∀ w : Nat, 2 ^ 68 ≤ w → cmdOfNumber w = .error .notACommandWord) ∧
  ∀ w : Nat, w < 2 ^ 68 → ∃ c : CmdWord, cmdOfNumber w = .ok c ∧ c.toNat = w

/-- R53: a word selects a row when `c & mask = match`, for the sixteen rows, and the rows' forms. -/
def Obligations.MatchAndMaskSelectTheRow : Prop :=
  ∀ c : CmdWord,
    let sel (m : CmdWord) : Prop := c &&& 0xF0000000000000000#68 = m
    (sel 0x00000000000000000#68 ↔ ∃ a b, decode c = .add a b) ∧
    (sel 0x10000000000000000#68 ↔ ∃ a b, decode c = .sub a b) ∧
    (sel 0x20000000000000000#68 ↔ ∃ a b, decode c = .mul a b) ∧
    (sel 0x30000000000000000#68 ↔ ∃ a b, decode c = .div a b) ∧
    (sel 0x40000000000000000#68 ↔ ∃ a b, decode c = .muln a b) ∧
    (sel 0x50000000000000000#68 ↔ ∃ a b, decode c = .divn a b) ∧
    (sel 0x60000000000000000#68 ↔ ∃ a b, decode c = .floor a b) ∧
    (sel 0x70000000000000000#68 ↔ ∃ a b, decode c = .ceil a b) ∧
    (sel 0x80000000000000000#68 ↔ ∃ a b, decode c = .resolvet a b) ∧
    (sel 0x90000000000000000#68 ↔ ∃ a b, decode c = .resolver a b) ∧
    (sel 0xA0000000000000000#68 ↔ ∃ a b, decode c = .maker a b) ∧
    (sel 0xB0000000000000000#68 ↔ ∃ a b, decode c = .maked a b) ∧
    (sel 0xC0000000000000000#68 ↔ ∃ a b, decode c = .reservedC a b) ∧
    (sel 0xD0000000000000000#68 ↔ ∃ a b, decode c = .reservedD a b) ∧
    (sel 0xE0000000000000000#68 ↔ ∃ a b, decode c = .reservedE a b) ∧
    (sel 0xF0000000000000000#68 ↔ ∃ a b, decode c = .reservedF a b) ∧
    ((decode c).form = .fu ↔ 0x6 ≤ (opCodeOf (decode c)).toNat ∧ (opCodeOf (decode c)).toNat ≤ 0x9) ∧
    ((decode c).form = .reserved ↔ 0xC ≤ (opCodeOf (decode c)).toNat)

/-- Round trip: decoding the encoding of any instruction gives it back, at every value of its fields, as a
command word and as a number of 68 bits. -/
def Obligations.DecodeOfEncode : Prop :=
  ∀ i : Instr, decode (encode i) = i ∧ decodeTableWord 68 (encode i).toNat = some i

/-- The other direction: every 68-bit word is the encoding of what it decodes to, so decoding drops no bit
and the sixteen codes are the whole code space (R54, R57). -/
def Obligations.EncodeOfDecode : Prop := ∀ c : CmdWord, encode (decode c) = c

/-- Command words the spec prints in its instruction rules, one per family. -/
def Obligations.PrintedWordsDecode : Prop :=
  decode 0x000000140000000C0#68 = .add 0x140#32 0xC0#32 ∧
  decode 0x200000140000000C0#68 = .mul 0x140#32 0xC0#32 ∧
  decode 0x50000050000000200#68 = .divn 0x500#32 0x200#32 ∧
  decode 0x70000018000000000#68 = .ceil 0x180#32 0#32 ∧
  decode 0x90000020000000000#68 = .resolver 0x200#32 0#32 ∧
  decode 0xB00000001000000FA#68 = .maked 1#32 250#32 ∧
  decode 0xE12345678FFFFFFFF#68 = .reservedE 0x12345678#32 0xFFFFFFFF#32

/-- R55: in form FU every value of `B` gives the same response, none raises, and the assembler writes 0. -/
def Obligations.UnaryOperationsIgnoreB : Prop :=
  ∀ (a b b' : Word) (s : State),
    (∃ r : Word, exec (.floor a b) s = .next { s with phase := .done (0#2 ++ r) } ∧
      exec (.floor a b') s = .next { s with phase := .done (0#2 ++ r) }) ∧
    (∃ r : Word, exec (.ceil a b) s = .next { s with phase := .done (0#2 ++ r) } ∧
      exec (.ceil a b') s = .next { s with phase := .done (0#2 ++ r) }) ∧
    (∃ r : Word, exec (.resolvet a b) s = .next { s with phase := .done (0#2 ++ r) } ∧
      exec (.resolvet a b') s = .next { s with phase := .done (0#2 ++ r) }) ∧
    (∃ r : Word, exec (.resolver a b) s = .next { s with phase := .done (0#2 ++ r) } ∧
      exec (.resolver a b') s = .next { s with phase := .done (0#2 ++ r) }) ∧
    commandOf .floor [a] = some (.floor a 0#32) ∧ commandOf .ceil [a] = some (.ceil a 0#32) ∧
    commandOf .resolvet [a] = some (.resolvet a 0#32) ∧ commandOf .resolver [a] = some (.resolver a 0#32)

/-- R59: FROMINT is MAKER with a zero fraction, `R = shl32(w, F)`, and MAKED gives the same. -/
def Obligations.FromIntIsMakerZero : Prop :=
  ∀ (env : AsmEnv) (n : Option String) (o : AsmOperand) (w : Word) (s : State),
    operandWord env o = some w →
    assembleLine env { binds := n, mnemonic := .fromint, operands := [o] } = some (.maker w 0#32) ∧
    exec (.maker w 0#32) s = .next { s with phase := .done (0#2 ++ (w <<< s.params.F)) } ∧
    exec (.maked w 0#32) s = .next { s with phase := .done (0#2 ++ (w <<< s.params.F)) }

/-- What the assembler of R58 writes is never a reserved code, and a unary operation has `B = 0`. -/
def Obligations.AssemblerWritesOnlyItsForms : Prop :=
  ∀ (env : AsmEnv) (l : AsmLine) (i : Instr), assembleLine env l = some i → i.assemblerWrites = true

/-- A word written with its hexadecimal digits, as R58 writes command words and operands, reads back as
itself. -/
def Obligations.HexadecimalTextReadsBack : Prop :=
  (∀ c : CmdWord, ∃ ds : List Char, cmdText c = '0' :: 'x' :: ds ∧ ds.length = 17 ∧
    readDigits 16 0 ds = some c.toNat) ∧
  ∀ (w : Word) (env : AsmEnv),
    (readOperand ('0' :: 'x' :: hexDigits 8 w.toNat)).bind (operandWord env) = some w

/-! ### The status of every operation and the two exceptions -/

/-- R130, R132, R133, R135: every operation answers, and its `STAT` is 1 exactly for DIV and DIVN with
`B = 0`, 2 exactly for the reserved codes, and 0 otherwise; `R` is 0 with an exception. -/
def Obligations.StatusOfEveryOperation : Prop :=
  ∀ (i : Instr) (s : State), ∃ (st : BitVec 2) (r : Word),
    exec i s = .next { s with phase := .done (st ++ r) } ∧
    (st = 1#2 ↔ (opCodeOf i = 0x3#4 ∨ opCodeOf i = 0x5#4) ∧ i.fieldB = 0#32) ∧
    (st = 2#2 ↔ 0xC ≤ (opCodeOf i).toNat) ∧
    st ≠ 3#2 ∧ (st ≠ 0#2 → r = 0#32)

/-- R56, R133: the four reserved codes answer `STAT = 2`, `R = 0`, whatever `A` and `B` are; every command word
with such a code executes so, no other word does, and it is accepted like any other. -/
def Obligations.ReservedCodesAnswerIllegalOperation : Prop :=
  (∀ (a b : Word) (s : State),
    exec (.reservedC a b) s = .next { s with phase := .done (2#2 ++ 0#32) } ∧
    exec (.reservedD a b) s = .next { s with phase := .done (2#2 ++ 0#32) } ∧
    exec (.reservedE a b) s = .next { s with phase := .done (2#2 ++ 0#32) } ∧
    exec (.reservedF a b) s = .next { s with phase := .done (2#2 ++ 0#32) }) ∧
  (∀ (c : CmdWord) (s : State), 0xC * 2 ^ 64 ≤ c.toNat ↔
    exec (decode c) s = .next { s with phase := .done (2#2 ++ 0#32) }) ∧
  ∀ (s : State) (p : HostPins) (ps : List HostPins),
    s.drive = p :: ps → s.phase = .idle → p.rst = false → p.reqValid = true → 0xC * 2 ^ 64 ≤ p.reqCmd.toNat →
    ∃ t : State, step s = .next t ∧
      ((∃ n, t.phase = .busy p.reqCmd n) ∨ t.phase = .done (2#2 ++ 0#32))

/-- The response depends on the command word and the parameters only, never on another operation, another
unit or time (R14, R43, R45 (b), R142). -/
def Obligations.ResponseDependsOnCommandAndParametersOnly : Prop :=
  ∀ (p : Params) (c : CmdWord), ∃ w : RspWord, ∀ s : State, s.params = p →
    exec (decode c) s = .next { s with phase := .done w }

/-- What was accepted and received earlier has no effect on any later edge: two states that differ only in
the host's record go through the same phases. That the responses are the same is R131, R45 and R138; that
the waits are the same is the model's choice, whose free latency is not applied to the record (log entry 1).
The record is the model's too (log entry 4). -/
def Obligations.EarlierOperationsLeaveNoTrace : Prop :=
  ∀ (k : Nat) (s : State) (h h' : List CmdWord) (g g' : List RspWord), ∃ t t' : State,
    Host.Core.run Sys2Proof.core k { s with sent := h, got := g } = .next t ∧
    Host.Core.run Sys2Proof.core k { s with sent := h', got := g' } = .next t' ∧
    t.phase = t'.phase ∧ t.params = t'.params ∧ t.drive = t'.drive ∧ t.edge = t'.edge

/-! ### The interface, edge by edge -/

/-- R29: the outputs are functions of the state, and of its phase only. -/
def Obligations.OutputsFollowThePhase : Prop :=
  ∀ s : State,
    (reqReady s = true ↔ s.phase = .idle) ∧
    (rspValid s = true ↔ ∃ r, s.phase = .done r) ∧
    (∀ r, s.phase = .done r → rspData s = r) ∧
    ∀ d : List HostPins, reqReady { s with drive := d } = reqReady s ∧
      rspValid { s with drive := d } = rspValid s ∧ rspData { s with drive := d } = rspData s

/-- R26: Accept takes the word on `req_cmd` at that edge and at no other time: after it the unit is in BUSY
with that word (or, with zero latency, already in DONE with its response, R27); outside IDLE the pins
`req_valid` and `req_cmd` have no effect, nor has `req_cmd` at an edge without an offer or with a reset. -/
def Obligations.AcceptTakesTheOfferedCommand : Prop :=
  (∀ (s : State) (p : HostPins) (ps : List HostPins),
    s.drive = p :: ps → s.phase = .idle → p.rst = false → p.reqValid = true →
    ∃ t : State, step s = .next t ∧
      ((∃ n, t.phase = .busy p.reqCmd n) ∨
        exec (decode p.reqCmd) { t with phase := .busy p.reqCmd 0 } = .next t) ∧
      t.params = s.params ∧ t.drive = ps ∧ t.got = s.got ∧ t.sent = s.sent ++ [p.reqCmd]) ∧
  (∀ (s : State) (p : HostPins) (ps : List HostPins) (v : Bool) (c : CmdWord),
    s.phase ≠ .idle →
    step { s with drive := { p with reqValid := v, reqCmd := c } :: ps } = step { s with drive := p :: ps }) ∧
  ∀ (s : State) (p : HostPins) (ps : List HostPins) (c : CmdWord),
    (p.reqValid = false ∨ p.rst = true) →
    step { s with drive := { p with reqCmd := c } :: ps } = step { s with drive := p :: ps }

/-- A step in BUSY with no wait left runs the decoded command, around which the step only moves on to the
next edge; an Accept with zero latency runs it at the same edge (R27; latency: log entry 1). -/
def Obligations.StepRunsTheDecodedCommand : Prop :=
  (∀ (s : State) (c : CmdWord), s.phase = .busy c 0 → (pinsOf s).rst = false →
    step s = exec (decode c) { s with drive := s.drive.tail, edge := s.edge + 1 }) ∧
  ∀ (s : State) (p : HostPins) (ps : List HostPins),
    s.drive = p :: ps → s.phase = .idle → p.rst = false → p.reqValid = true →
    step s =
      match Config.latency s.params s.edge p.reqCmd with
      | 0 => exec (decode p.reqCmd)
          { s with phase := .busy p.reqCmd 0, drive := ps, edge := s.edge + 1, sent := s.sent ++ [p.reqCmd] }
      | n + 1 => .next
          { s with phase := .busy p.reqCmd n, drive := ps, edge := s.edge + 1, sent := s.sent ++ [p.reqCmd] }

/-- From BUSY the unit reaches DONE after finitely many edges with `rst = 0`, for every command word, and the
state it reaches is that of executing the decoded command (R160). The count `n + 1` is read from the wait
field of `Phase.busy`, the model's own (log entry 1); R159 fixes no number. -/
def Obligations.EveryAcceptedCommandCompletes : Prop :=
  ∀ (n : Nat) (s : State) (c : CmdWord), s.phase = .busy c n →
    (∀ p ∈ s.drive.take (n + 1), p.rst = false) →
    ∃ (t : State) (w : RspWord), Host.Core.run Sys2Proof.core (n + 1) s = .next t ∧ t.phase = .done w ∧
      exec (decode c) { s with drive := s.drive.drop (n + 1), edge := s.edge + (n + 1) } = .next t

/-- R28: Deliver hands `RSP` to the host and goes to IDLE, whatever is offered at that edge; with
`rsp_ready = 0` the unit stays in DONE with `RSP` unchanged, for as long as the host waits. -/
def Obligations.DeliverOrHoldTheResponse : Prop :=
  (∀ (s : State) (p : HostPins) (ps : List HostPins) (r : RspWord),
    s.drive = p :: ps → s.phase = .done r → p.rst = false → p.rspReady = true →
    step s = .next { s with phase := .idle, got := s.got ++ [r], drive := ps, edge := s.edge + 1 }) ∧
  ∀ (k : Nat) (s : State) (r : RspWord), s.phase = .done r →
    (∀ p ∈ s.drive.take k, p.rst = false ∧ p.rspReady = false) →
    Host.Core.run Sys2Proof.core k s = .next { s with drive := s.drive.drop k, edge := s.edge + k }

/-- R150: at every edge with `rst = 1` the unit goes to IDLE, whatever the phase and the other pins; while
`rst` stays 1 it stays there, nothing is accepted or delivered, and `F` and `Q` keep their values. -/
def Obligations.ResetOverridesEverything : Prop :=
  ∀ (k : Nat) (s : State), k + 1 ≤ s.drive.length → (∀ p ∈ s.drive.take (k + 1), p.rst = true) →
    ∃ t : State, Host.Core.run Sys2Proof.core (k + 1) s = .next t ∧ t.phase = .idle ∧
      reqReady t = true ∧ rspValid t = false ∧ t.params = s.params ∧
      t.sent.length ≤ s.sent.length ∧ t.got.length ≤ s.got.length

/-- In IDLE nothing but a command or a reset changes the unit (R143, R161). -/
def Obligations.IdleWaitsForACommand : Prop :=
  ∀ (k : Nat) (s : State), s.phase = .idle →
    (∀ p ∈ s.drive.take k, p.rst = false ∧ p.reqValid = false) →
    Host.Core.run Sys2Proof.core k s = .next { s with drive := s.drive.drop k, edge := s.edge + k }

/-- The unit never stops: every step from every state answers a next state, and so does every run. -/
def Obligations.TheUnitNeverStops : Prop :=
  ∀ (k : Nat) (s : State), ∃ t : State, Host.Core.run Sys2Proof.core k s = .next t

/-! ### What every step keeps -/

/-- An invariant: the responses received, and the one owed, are `fx_exec` of the accepted commands since the
last reset, one each, in order. -/
def Obligations.EveryStepKeepsResponsesPaired : Prop :=
  ∀ s t : State, Paired s → step s = .next t → Paired t

/-- An invariant: every response has `STAT ≠ 3`, and `R = 0` whenever `STAT ≠ 0`. -/
def Obligations.EveryStepKeepsResponsesLegal : Prop :=
  ∀ s t : State, ResponsesLegal s → step s = .next t → ResponsesLegal t

/-- Both invariants hold right after reset, for every build and every host. -/
def Obligations.ResetMeetsTheInvariants : Prop :=
  ∀ (p : Params) (d : List HostPins),
    (Paired (State.resetWith p d) ∧ ResponsesLegal (State.resetWith p d)) ∧
    Paired State.reset ∧ ResponsesLegal State.reset

/-- `F` and `Q` are fixed: no step changes them, from any state. -/
def Obligations.NoStepChangesTheParameters : Prop :=
  ∀ s t : State, step s = .next t → t.params = s.params

/-- R32: over every run from reset, with every host and every latency, the responses come in the order of the
accepted commands, one each, none unasked, and the n-th is `fx_exec` of the n-th command since the last
reset; in IDLE every accepted command has its response. -/
def Obligations.EveryRunAnswersInOrder : Prop :=
  ∀ (p : Params) (d : List HostPins) (k : Nat) (t : State),
    Host.Core.run Sys2Proof.core k (State.resetWith p d) = .next t →
    t.got = (t.sent.map (answer p)).take t.got.length ∧
    t.got.length ≤ t.sent.length ∧ t.sent.length ≤ t.got.length + 1 ∧
    (t.phase = .idle → t.got = t.sent.map (answer p))

/-- R161: for every finite list of command words there is a host that gets it answered: a run that ends in
IDLE with every word accepted and its response delivered, in order. -/
def Obligations.EveryCommandListCanBeAnswered : Prop :=
  ∀ (p : Params) (cs : List CmdWord), ∃ (d : List HostPins) (k : Nat) (t : State),
    Host.Core.run Sys2Proof.core k (State.resetWith p d) = .next t ∧
    t.phase = .idle ∧ t.drive = [] ∧ t.sent = cs ∧ t.got = cs.map (answer p)

/-- R30, R151: right after reset `PH = IDLE`, so `req_ready = 1` and `rsp_valid = 0`; the constants keep
their build values, by default `F = 8`, `Q = 1000`. -/
def Obligations.ResetState : Prop :=
  (∀ (p : Params) (d : List HostPins), (State.resetWith p d).phase = .idle ∧
    reqReady (State.resetWith p d) = true ∧ rspValid (State.resetWith p d) = false ∧
    (State.resetWith p d).params = p) ∧
  State.reset.phase = .idle ∧ State.reset.params.F = 8 ∧ State.reset.params.Q = 1000

/-! ### Parameters and constants -/

/-- R5, R6, R8: a unit is built exactly when `F` is in 1 .. 31 and `Q` in 1 .. 65536, with those values. -/
def Obligations.BuildFailsOutOfRange : Prop :=
  ∀ F Q : Nat,
    (1 ≤ F ∧ F ≤ 31 ∧ 1 ≤ Q ∧ Q ≤ 65536 → ∃ p, Params.build F Q = some p ∧ p.F = F ∧ p.Q = Q) ∧
    (¬ (1 ≤ F ∧ F ≤ 31 ∧ 1 ≤ Q ∧ Q ≤ 65536) → Params.build F Q = none)

/-- R7: the derived constants, bit by bit, and their values at the default `F` and at `F = 31`. -/
def Obligations.DerivedConstants : Prop :=
  (∀ (p : Params) (i : Nat), i < 32 →
    ((onePattern p).getLsbD i = true ↔ i = p.F) ∧
    ((halfPattern p).getLsbD i = true ↔ i = p.F - 1) ∧
    ((maskPattern p).getLsbD i = true ↔ i < p.F) ∧
    ((~~~ maskPattern p).getLsbD i = true ↔ p.F ≤ i)) ∧
  (∀ p : Params, p.F = 31 → onePattern p = 0x80000000#32 ∧ s32 (onePattern p) = -2 ^ 31) ∧
  ∀ p : Params, p.F = 8 → onePattern p = 0x100#32 ∧ halfPattern p = 0x80#32 ∧ maskPattern p = 0xFF#32 ∧
    ~~~ maskPattern p = 0xFFFFFF00#32

/-! ### Exactness -/

/-- Within the exactness condition that R156 collects for it, an operation answers `STAT = 0` and its result
is the unwrapped value of its rule (R70, R72, R80, R82, R90, R92, R100, R102, R110, R112, R120, R122). A
reserved code has no such condition. -/
def Obligations.ResultsAreExactWithinTheirConditions : Prop :=
  ∀ (i : Instr) (s : State), exactCond s.params i → ∃ r : Word,
    exec i s = .next { s with phase := .done (0#2 ++ r) } ∧
    match i with
    | .add a b => r.toInt = a.toInt + b.toInt
    | .sub a b => r.toInt = a.toInt - b.toInt
    | .mul a b => r.toInt = a.toInt * b.toInt / 2 ^ s.params.F
    | .div a b => r.toInt = (a.toInt * 2 ^ s.params.F).tdiv b.toInt
    | .muln a b => r.toInt = a.toInt * b.toInt / 2 ^ s.params.F
    | .divn a b => r.toInt = (a.toInt * 2 ^ s.params.F).tdiv b.toInt
    | .floor a _ => r.toInt = a.toInt / 2 ^ s.params.F * 2 ^ s.params.F
    | .ceil a _ => r.toInt = -(-a.toInt / 2 ^ s.params.F) * 2 ^ s.params.F
    | .resolvet a _ => r.toInt = a.toInt / 2 ^ s.params.F
    | .resolver a _ => r.toInt = (a.toInt + 2 ^ (s.params.F - 1)) / 2 ^ s.params.F
    | .maker a b => r.toInt = a.toInt * 2 ^ s.params.F + b.toNat
    | .maked a b => r.toInt = a.toInt * 2 ^ s.params.F + (b.toNat * 2 ^ s.params.F / s.params.Q : Nat)
    | .reservedC _ _ => False
    | .reservedD _ _ => False
    | .reservedE _ _ => False
    | .reservedF _ _ => False

/-! ### Adder/subtractor -/

/-- R90: ADD. -/
def Obligations.AddWrapsModulo : Prop :=
  ∀ (a b : Word) (s : State), ∃ r : Word,
    decode (0x0#4 ++ a ++ b) = .add a b ∧
    exec (.add a b) s = .next { s with phase := .done (0#2 ++ r) } ∧
    (r.toNat : Int) = (a.toInt + b.toInt) % 2 ^ 32 ∧
    (Fits32 (a.toInt + b.toInt) →
      r.toInt = a.toInt + b.toInt ∧ real s.params r = real s.params a + real s.params b) ∧
    exec (.add b a) s = .next { s with phase := .done (0#2 ++ r) } ∧
    (b = 0#32 → r = a)

/-- R91: the overflow predicate of ADD by the sign bits is that of the exact sum. -/
def Obligations.AddOverflowPredicate : Prop :=
  ∀ (a b : Word) (s : State), ∃ r : Word,
    exec (.add a b) s = .next { s with phase := .done (0#2 ++ r) } ∧
    (addOvf a b ↔ a.getLsbD 31 = b.getLsbD 31 ∧ r.getLsbD 31 ≠ a.getLsbD 31) ∧
    (addOvf a b ↔ ¬ Fits32 (a.toInt + b.toInt))

/-- R92: SUB, with its relation to ADD and negation as `SUB 0, B`. -/
def Obligations.SubWrapsModulo : Prop :=
  ∀ (a b : Word) (s : State), ∃ r n : Word,
    decode (0x1#4 ++ a ++ b) = .sub a b ∧
    exec (.sub a b) s = .next { s with phase := .done (0#2 ++ r) } ∧
    (r.toNat : Int) = (a.toInt - b.toInt) % 2 ^ 32 ∧
    (Fits32 (a.toInt - b.toInt) →
      r.toInt = a.toInt - b.toInt ∧ real s.params r = real s.params a - real s.params b) ∧
    exec (.sub 0#32 b) s = .next { s with phase := .done (0#2 ++ n) } ∧
    (b ≠ 0x80000000#32 → n.toInt = -b.toInt) ∧ (b = 0x80000000#32 → n = b) ∧
    exec (.add a n) s = .next { s with phase := .done (0#2 ++ r) } ∧
    (a = b → r = 0#32)

/-- R93: the overflow predicate of SUB by the sign bits is that of the exact difference. -/
def Obligations.SubOverflowPredicate : Prop :=
  ∀ (a b : Word) (s : State), ∃ r : Word,
    exec (.sub a b) s = .next { s with phase := .done (0#2 ++ r) } ∧
    (subOvf a b ↔ a.getLsbD 31 ≠ b.getLsbD 31 ∧ r.getLsbD 31 ≠ a.getLsbD 31) ∧
    (subOvf a b ↔ ¬ Fits32 (a.toInt - b.toInt))

/-! ### Multiplier -/

/-- R100: MUL is the 64-bit datapath `narrow((widen(a) * widen(b)) >> F)`, exact within its condition. -/
def Obligations.MulIsTheWidenedDatapath : Prop :=
  ∀ (a b : Word) (s : State), ∃ r : Word,
    decode (0x2#4 ++ a ++ b) = .mul a b ∧
    exec (.mul a b) s = .next { s with phase := .done (0#2 ++ r) } ∧
    r = ((a.signExtend 64 * b.signExtend 64).sshiftRight s.params.F).setWidth 32 ∧
    (Fits32 (a.toInt * b.toInt / 2 ^ s.params.F) →
      r.toInt = a.toInt * b.toInt / 2 ^ s.params.F ∧
      real s.params r = ⌊real s.params a * real s.params b * 2 ^ s.params.F⌋ / 2 ^ s.params.F) ∧
    exec (.mul b a) s = .next { s with phase := .done (0#2 ++ r) } ∧
    (a = 0#32 → r = 0#32) ∧
    (b = onePattern s.params → s.params.F ≤ 30 → r = a) ∧
    (b = onePattern s.params → s.params.F = 31 → r = -a)

/-- R101: MUL overflows exactly when bits 63 .. 31+F of the 64-bit product are not all equal. -/
def Obligations.MulOverflowByProductBits : Prop :=
  ∀ (p : Params) (a b : Word),
    (mulOvf p a b ↔ ¬ Fits32 (a.toInt * b.toInt / 2 ^ p.F)) ∧
    (mulOvf p a b ↔
      ¬ ∀ i, 31 + p.F ≤ i → i ≤ 63 →
        (a.signExtend 64 * b.signExtend 64).getLsbD i = (a.signExtend 64 * b.signExtend 64).getLsbD 63)

/-- R102: MULN is the 32-bit datapath; it is MUL when the product fits, and always agrees with MUL in the
low `32 - F` bits, its top `F` bits being copies of bit 31 of the product where MUL has bits 31+F .. 32. -/
def Obligations.MulnIsTheNativeDatapath : Prop :=
  ∀ (a b : Word) (s : State), ∃ r m : Word,
    decode (0x4#4 ++ a ++ b) = .muln a b ∧
    exec (.muln a b) s = .next { s with phase := .done (0#2 ++ r) } ∧
    r = (a * b).sshiftRight s.params.F ∧
    exec (.mul a b) s = .next { s with phase := .done (0#2 ++ m) } ∧
    (Fits32 (a.toInt * b.toInt) → r = m) ∧
    (∀ i, i < 32 - s.params.F → r.getLsbD i = m.getLsbD i) ∧
    (∀ i, 32 - s.params.F ≤ i → i < 32 → r.getLsbD i = (a * b).getLsbD 31 ∧
      m.getLsbD i = (a.signExtend 64 * b.signExtend 64).getLsbD (i + s.params.F)) ∧
    (b = onePattern s.params → ∀ i, i < 32 → r.getLsbD i = a.getLsbD (min i (31 - s.params.F)))

/-! ### Divider -/

/-- R110: DIV raises DivideByZero exactly on `B = 0`; otherwise it is the 64-bit datapath
`narrow((widen(a) << F) / b)`, the quotient rounded toward zero. -/
def Obligations.DivIsTheWidenedDatapath : Prop :=
  ∀ (a b : Word) (s : State),
    decode (0x3#4 ++ a ++ b) = .div a b ∧
    (b = 0#32 → exec (.div a b) s = .next { s with phase := .done (1#2 ++ 0#32) }) ∧
    (b ≠ 0#32 → ∃ r : Word,
      exec (.div a b) s = .next { s with phase := .done (0#2 ++ r) } ∧
      r = ((a.signExtend 64 <<< s.params.F).sdiv (b.signExtend 64)).setWidth 32 ∧
      (Fits32 ((a.toInt * 2 ^ s.params.F).tdiv b.toInt) →
        r.toInt = (a.toInt * 2 ^ s.params.F).tdiv b.toInt ∧
        |real s.params r| ≤ |real s.params a / real s.params b| ∧
        |real s.params r - real s.params a / real s.params b| < 1 / 2 ^ s.params.F) ∧
      (|real s.params a / real s.params b| < 2 ^ (31 - s.params.F) →
        Fits32 ((a.toInt * 2 ^ s.params.F).tdiv b.toInt)) ∧
      (a = 0#32 → r = 0#32) ∧
      (b = onePattern s.params → s.params.F ≤ 30 → r = a) ∧
      (a = b → r = onePattern s.params))

/-- R111: DIV overflows when its exact quotient does not fit; with a divisor of magnitude one or more the
only such case is `-2^31` by `-2^F`. -/
def Obligations.DivOverflowWithLargeDivisor : Prop :=
  ∀ (p : Params) (a b : Word), b ≠ 0#32 →
    (divOvf p a b ↔ ¬ Fits32 ((a.toInt * 2 ^ p.F).tdiv b.toInt)) ∧
    (2 ^ p.F ≤ |b.toInt| → (divOvf p a b ↔ a.toInt = -2 ^ 31 ∧ b.toInt = -2 ^ p.F))

/-- R112: DIVN raises DivideByZero exactly on `B = 0`; otherwise it is the 32-bit datapath `(a << F) / b`,
`-2^31 / -1` wrapping; with the shifted numerator in range it is DIV, for every `B`. -/
def Obligations.DivnIsTheNativeDatapath : Prop :=
  ∀ (a b : Word) (s : State),
    decode (0x5#4 ++ a ++ b) = .divn a b ∧
    (b = 0#32 → exec (.divn a b) s = .next { s with phase := .done (1#2 ++ 0#32) }) ∧
    (b ≠ 0#32 → ∃ r : Word,
      exec (.divn a b) s = .next { s with phase := .done (0#2 ++ r) } ∧
      r = (a <<< s.params.F).sdiv b ∧
      (a <<< s.params.F = 0x80000000#32 → b = 0xFFFFFFFF#32 → r = 0x80000000#32)) ∧
    (WholeInRange s.params a.toInt → exec (.divn a b) s = exec (.div a b) s)

/-- R114: dividing a product by the factor it was multiplied by; the bound that does hold, the one step for
divisors of magnitude one or more, and the largest error at the smallest divisor. -/
def Obligations.MultiplyThenDivideBound : Prop :=
  (∀ (a b m d : Word) (s : State), b ≠ 0#32 →
    exec (.mul a b) s = .next { s with phase := .done (0#2 ++ m) } →
    Fits32 (a.toInt * b.toInt / 2 ^ s.params.F) →
    exec (.div m b) s = .next { s with phase := .done (0#2 ++ d) } →
    Fits32 ((m.toInt * 2 ^ s.params.F).tdiv b.toInt) →
    |d.toInt - a.toInt| * |b.toInt| < 2 ^ s.params.F + |b.toInt| ∧
    (2 ^ s.params.F ≤ |b.toInt| → |d.toInt - a.toInt| ≤ 1)) ∧
  ∀ s : State, (maskPattern s.params).toInt = 2 ^ s.params.F - 1 ∧
    exec (.mul (maskPattern s.params) 1#32) s = .next { s with phase := .done (0#2 ++ 0#32) } ∧
    exec (.div 0#32 1#32) s = .next { s with phase := .done (0#2 ++ 0#32) }

/-! ### Rounding -/

/-- R120: FLOOR clears the fraction and is exact for every input. -/
def Obligations.FloorIsExact : Prop :=
  ∀ (a b : Word) (s : State), ∃ r : Word,
    decode (0x6#4 ++ a ++ b) = .floor a b ∧
    exec (.floor a b) s = .next { s with phase := .done (0#2 ++ r) } ∧
    (∀ i, i < 32 → r.getLsbD i = (decide (s.params.F ≤ i) && a.getLsbD i)) ∧
    r.toInt = a.toInt / 2 ^ s.params.F * 2 ^ s.params.F ∧
    real s.params r = ⌊real s.params a⌋ ∧
    exec (.floor r b) s = .next { s with phase := .done (0#2 ++ r) }

/-- R122: CEIL is `(v + MASK) & ~MASK` in 32 bits; whole values are unchanged, within its condition it is
the exact ceiling, and past it the result is the most negative value. -/
def Obligations.CeilRoundsUp : Prop :=
  ∀ (a b : Word) (s : State), ∃ r : Word,
    decode (0x7#4 ++ a ++ b) = .ceil a b ∧
    exec (.ceil a b) s = .next { s with phase := .done (0#2 ++ r) } ∧
    r = (a + BitVec.ofNat 32 (2 ^ s.params.F - 1)) &&& ~~~ BitVec.ofNat 32 (2 ^ s.params.F - 1) ∧
    (∀ i, i < s.params.F → r.getLsbD i = false) ∧
    (a.toInt % 2 ^ s.params.F = 0 → r = a) ∧
    (a.toInt ≤ 2 ^ 31 - 2 ^ s.params.F →
      r.toInt = -(-a.toInt / 2 ^ s.params.F) * 2 ^ s.params.F ∧ real s.params r = ⌈real s.params a⌉) ∧
    (a.toInt > 2 ^ 31 - 2 ^ s.params.F → r = 0x80000000#32) ∧
    exec (.ceil r b) s = .next { s with phase := .done (0#2 ++ r) }

/-- R123: CEIL is FLOOR plus ONE, wraps included, but on whole values, where both leave `A`. -/
def Obligations.CeilIsFloorPlusOne : Prop :=
  ∀ (a b : Word) (s : State), ∃ f c : Word,
    exec (.floor a b) s = .next { s with phase := .done (0#2 ++ f) } ∧
    exec (.ceil a b) s = .next { s with phase := .done (0#2 ++ c) } ∧
    (a &&& maskPattern s.params = 0#32 → f = a ∧ c = a) ∧
    (a &&& maskPattern s.params ≠ 0#32 → c = f + onePattern s.params ∧
      (a.toInt ≤ 2 ^ 31 - 2 ^ s.params.F → ∃ q q' : Word,
        exec (.resolvet f b) s = .next { s with phase := .done (0#2 ++ q) } ∧
        exec (.resolvet c b) s = .next { s with phase := .done (0#2 ++ q') } ∧ q'.toInt = q.toInt + 1))

/-- R124: the overflow predicate of CEIL, by value and by the sign bits. -/
def Obligations.CeilOverflowPredicate : Prop :=
  ∀ (p : Params) (a : Word),
    (ceilOvf p a ↔ a.toInt > 2 ^ 31 - 2 ^ p.F) ∧
    (ceilOvf p a ↔ a.getLsbD 31 = false ∧ (a + maskPattern p).getLsbD 31 = true)

/-! ### Resolves -/

/-- R80: RESOLVET is the floor of the real value, for every input. -/
def Obligations.ResolvetIsFloor : Prop :=
  ∀ (a b : Word) (s : State), ∃ r : Word,
    decode (0x8#4 ++ a ++ b) = .resolvet a b ∧
    exec (.resolvet a b) s = .next { s with phase := .done (0#2 ++ r) } ∧
    r = a.sshiftRight s.params.F ∧
    r.toInt = a.toInt / 2 ^ s.params.F ∧ r.toInt = ⌊real s.params a⌋ ∧
    WholeInRange s.params r.toInt

/-- R81, R121: FLOOR is RESOLVET shifted back, and RESOLVET does not see the fraction FLOOR clears. -/
def Obligations.ResolvetAndFloorAgree : Prop :=
  ∀ (a b : Word) (s : State), ∃ q f : Word,
    exec (.resolvet a b) s = .next { s with phase := .done (0#2 ++ q) } ∧
    exec (.floor a b) s = .next { s with phase := .done (0#2 ++ f) } ∧
    f = q <<< s.params.F ∧
    exec (.resolvet f b) s = .next { s with phase := .done (0#2 ++ q) } ∧
    exec (.resolver f b) s = .next { s with phase := .done (0#2 ++ q) }

/-- R82: RESOLVER is `(v + HALF) >> F` in 32 bits: to nearest, ties up, within its condition; past it the
result is short by `2^(32-F)`. -/
def Obligations.ResolverRoundsToNearest : Prop :=
  ∀ (a b : Word) (s : State), ∃ r : Word,
    decode (0x9#4 ++ a ++ b) = .resolver a b ∧
    exec (.resolver a b) s = .next { s with phase := .done (0#2 ++ r) } ∧
    r = (a + BitVec.ofNat 32 (2 ^ (s.params.F - 1))).sshiftRight s.params.F ∧
    (a.toInt ≤ 2 ^ 31 - 1 - 2 ^ (s.params.F - 1) →
      r.toInt = (a.toInt + 2 ^ (s.params.F - 1)) / 2 ^ s.params.F ∧
      r.toInt = ⌊real s.params a + 1 / 2⌋) ∧
    (a.toInt > 2 ^ 31 - 1 - 2 ^ (s.params.F - 1) →
      r.toInt = (a.toInt + 2 ^ (s.params.F - 1)) / 2 ^ s.params.F - 2 ^ (32 - s.params.F))

/-- R83: within the condition of RESOLVER the two resolves differ by the top fraction bit of `A`. -/
def Obligations.ResolvesDifferByTopFractionBit : Prop :=
  ∀ (a b : Word) (s : State), a.toInt ≤ 2 ^ 31 - 1 - 2 ^ (s.params.F - 1) → ∃ r q : Word,
    exec (.resolver a b) s = .next { s with phase := .done (0#2 ++ r) } ∧
    exec (.resolvet a b) s = .next { s with phase := .done (0#2 ++ q) } ∧
    r.toInt = q.toInt + (if a.getLsbD (s.params.F - 1) then 1 else 0)

/-- R84: both resolves undo both constructors with a zero fraction, on the whole range of whole parts. -/
def Obligations.ResolveUndoesMake : Prop :=
  ∀ (i b : Word) (s : State), WholeInRange s.params i.toInt → ∃ v : Word,
    exec (.maker i 0#32) s = .next { s with phase := .done (0#2 ++ v) } ∧
    exec (.maked i 0#32) s = .next { s with phase := .done (0#2 ++ v) } ∧
    exec (.resolvet v b) s = .next { s with phase := .done (0#2 ++ i) } ∧
    exec (.resolver v b) s = .next { s with phase := .done (0#2 ++ i) }

/-! ### Constructors -/

/-- R70: MAKER is `(whole << F) | frac` on the whole 32 bits of `B`; in its domain it is the sum. -/
def Obligations.MakerOrsTheRawFraction : Prop :=
  ∀ (a b : Word) (s : State), ∃ r : Word,
    decode (0xA#4 ++ a ++ b) = .maker a b ∧
    exec (.maker a b) s = .next { s with phase := .done (0#2 ++ r) } ∧
    r = (a <<< s.params.F) ||| b ∧
    (WholeInRange s.params a.toInt → b.toNat ≤ 2 ^ s.params.F - 1 →
      r.toInt = a.toInt * 2 ^ s.params.F + b.toNat ∧
      real s.params r = a.toInt + (b.toNat : ℚ) / 2 ^ s.params.F)

/-- R72: MAKED rescales the fraction to `floor(B * 2^F / Q)`, keeps its low 32 bits and ORs them in; in its
domain the fraction is rounded down to a multiple of `2^-F`. -/
def Obligations.MakedRescalesTheFraction : Prop :=
  ∀ (a b : Word) (s : State), ∃ (r : Word) (frac : Nat),
    decode (0xB#4 ++ a ++ b) = .maked a b ∧
    exec (.maked a b) s = .next { s with phase := .done (0#2 ++ r) } ∧
    frac = b.toNat * 2 ^ s.params.F * 65536 / s.params.Q / 65536 ∧
    frac = b.toNat * 2 ^ s.params.F / s.params.Q ∧
    r = (a <<< s.params.F) ||| BitVec.ofNat 32 frac ∧
    (b.toNat < s.params.Q → frac ≤ 2 ^ s.params.F - 1) ∧
    (WholeInRange s.params a.toInt → b.toNat < s.params.Q →
      r.toInt = a.toInt * 2 ^ s.params.F + frac ∧
      (frac : ℚ) / 2 ^ s.params.F ≤ (b.toNat : ℚ) / s.params.Q ∧
      (b.toNat : ℚ) / s.params.Q < (frac + 1 : ℚ) / 2 ^ s.params.F)

/-- R73: MAKED is MAKER of the rescaled fraction, for every `A`, `B`, `F` and `Q`. -/
def Obligations.MakedIsMakerOfRescaledFraction : Prop :=
  ∀ (a b : Word) (s : State),
    exec (.maked a b) s =
      exec (.maker a (BitVec.ofNat 32 (b.toNat * 2 ^ s.params.F / s.params.Q))) s ∧
    exec (.maked a 0#32) s = exec (.maker a 0#32) s

/-- Where `Q = 2^F`, MAKER is MAKED on the in-domain fractions (R74). -/
def Obligations.MakerIsMakedAtPowerOfTwo : Prop :=
  ∀ (a b : Word) (s : State), s.params.Q = 2 ^ s.params.F → b.toNat < 2 ^ s.params.F →
    exec (.maked a b) s = exec (.maker a b) s
end

