-- ==== Sys2Proof/Laws/Decode.lean ====
section
/-!
SUPPORT. The fields of a command word built from its fields, and of an encoded instruction
(30_encoding.md R50).
-/

namespace Sys2Proof

@[simp] theorem cmdOp_cmdWord (op : OpCode) (a b : Word) : cmdOp (cmdWord op a b) = op := by
  apply BitVec.eq_of_getLsbD_eq
  intro i hi
  simp only [cmdOp, cmdWord, BitVec.getLsbD_extractLsb', BitVec.getLsbD_append]
  have h₁ : ¬ 64 + i < 32 := by omega
  have h₂ : ¬ 64 + i - 32 < 32 := by omega
  have h₃ : 64 + i - 32 - 32 = i := by omega
  simp [hi, h₁, h₂, h₃]

@[simp] theorem cmdA_cmdWord (op : OpCode) (a b : Word) : cmdA (cmdWord op a b) = a := by
  apply BitVec.eq_of_getLsbD_eq
  intro i hi
  simp only [cmdA, cmdWord, BitVec.getLsbD_extractLsb', BitVec.getLsbD_append]
  simp [hi]

@[simp] theorem cmdB_cmdWord (op : OpCode) (a b : Word) : cmdB (cmdWord op a b) = b := by
  apply BitVec.eq_of_getLsbD_eq
  intro i hi
  simp only [cmdB, cmdWord, BitVec.getLsbD_extractLsb', BitVec.getLsbD_append]
  simp [hi]

/-- Decoding a word built from its fields looks the operation up by its code. -/
theorem decode_cmdWord (op : OpCode) (a b : Word) : decode (cmdWord op a b) = instrOf op a b := by
  simp [decode]

@[simp] theorem opCodeOf_instrOf (op : OpCode) (a b : Word) : opCodeOf (instrOf op a b) = op := by
  revert op; intro op
  fin_cases op <;> rfl

@[simp] theorem fieldA_instrOf (op : OpCode) (a b : Word) : (instrOf op a b).fieldA = a := by
  unfold instrOf; split <;> rfl

@[simp] theorem fieldB_instrOf (op : OpCode) (a b : Word) : (instrOf op a b).fieldB = b := by
  unfold instrOf; split <;> rfl

/-- A number of more than 68 bits is rejected by name. -/
theorem cmdOfNumber_too_wide {w : Nat} (h : 2 ^ 68 ≤ w) : cmdOfNumber w = .error .notACommandWord := by
  rw [cmdOfNumber, if_neg]
  simpa [isCmdNumber] using h

/-- A number of at most 68 bits is a command word. -/
theorem cmdOfNumber_of_lt {w : Nat} (h : w < 2 ^ 68) : cmdOfNumber w = .ok (BitVec.ofNat 68 w) := by
  rw [cmdOfNumber, if_pos]
  simpa [isCmdNumber] using h

end Sys2Proof
end

