-- ==== Sys2Proof/Laws/Operands.lean ====
section
/-!
SUPPORT. What the integer readings and operators of 00_scope.md R11 and R12 do, and the values of the
constants of R7.
-/

namespace Sys2Proof.Machine

theorem s32_bounds (x : Word) : Fits32 (s32 x) := by
  have h₁ : -2 ^ 31 ≤ s32 x := BitVec.le_toInt x
  have h₂ : s32 x < 2 ^ 31 := BitVec.toInt_lt
  constructor <;> omega

@[simp] theorem wrap32_s32 (x : Word) : wrap32 (s32 x) = x := BitVec.ofInt_toInt

@[simp] theorem wrap32_u32 (x : Word) : wrap32 (u32 x : Int) = x := by
  apply BitVec.eq_of_toNat_eq
  have := x.isLt
  simp only [wrap32, u32, BitVec.toNat_ofInt]
  omega

/-- A value that fits is not changed by narrowing. -/
theorem s32_wrap32_of_fits {n : Int} (h : Fits32 n) : s32 (wrap32 n) = n := by
  obtain ⟨h₁, h₂⟩ := h
  rw [s32, wrap32, BitVec.toInt_ofInt]
  apply Int.bmod_eq_of_le <;> norm_num at * <;> omega

/-- `u32(wrap32(n)) = n mod 2^32` (R11). -/
theorem u32_wrap32 (n : Int) : (u32 (wrap32 n) : Int) = n % 2 ^ 32 := by
  simp only [u32, wrap32, BitVec.toNat_ofInt]
  omega

theorem u32_wrap32_of_lt {n : Nat} (h : n < 2 ^ 32) : u32 (wrap32 n) = n := by
  have := u32_wrap32 n
  omega

theorem floorDiv_mul_le (n : Int) {d : Int} (h : 0 < d) : floorDiv n d * d ≤ n :=
  Int.ediv_mul_le n h.ne'

theorem lt_floorDiv_add_one_mul (n : Int) {d : Int} (h : 0 < d) : n < (floorDiv n d + 1) * d :=
  Int.lt_ediv_add_one_mul_self n h

/-- `trunc_div` is integer division rounded toward zero. -/
theorem truncDiv_eq_tdiv (n d : Int) : truncDiv n d = n.tdiv d := by
  have nat (m : Nat) : m = 0 ∨ (m : Int).sign = 1 := by
    rcases Nat.eq_zero_or_pos m with h | h
    · exact .inl h
    · exact .inr (Int.sign_eq_one_of_pos (by omega))
  rw [truncDiv, floorDiv]
  obtain ⟨m, rfl | rfl⟩ := Int.eq_nat_or_neg n <;> obtain ⟨k, rfl | rfl⟩ := Int.eq_nat_or_neg d <;>
    rcases nat m with rfl | hm <;> rcases nat k with rfl | hk <;>
    simp [Int.neg_tdiv, Int.tdiv_neg, *]

theorem asr32_eq_sshiftRight (x : Word) (k : Nat) : asr32 x k = x.sshiftRight k := by
  have h : (x.sshiftRight k).toInt = x.toInt / (2 ^ k : Int) := by
    rw [BitVec.toInt_sshiftRight, Int.shiftRight_eq_div_pow]; norm_cast
  rw [asr32, shiftRight, floorDiv, s32, ← h, wrap32, BitVec.ofInt_toInt]

theorem shl32_eq_shiftLeft (x : Word) (k : Nat) : shl32 x k = x <<< k := by
  apply BitVec.eq_of_toNat_eq
  have h := u32_wrap32 ((u32 x * 2 ^ k : Nat) : Int)
  rw [BitVec.toNat_shiftLeft, Nat.shiftLeft_eq]
  rw [shl32]
  push_cast at h
  zify
  exact h

/-- The legal range of `F` (R5). -/
theorem params_F_range (p : Params) : 1 ≤ p.F ∧ p.F ≤ 31 := by
  have := p.ok
  simp only [paramsOk, Bool.and_eq_true, decide_eq_true_eq] at this
  exact this.1

/-- The legal range of `Q` (R6). -/
theorem params_Q_range (p : Params) : 1 ≤ p.Q ∧ p.Q ≤ 65536 := by
  have := p.ok
  simp only [paramsOk, Bool.and_eq_true, decide_eq_true_eq] at this
  exact this.2

theorem two_pow_F_le (p : Params) : 2 ^ p.F ≤ 2 ^ 31 :=
  Nat.pow_le_pow_right (by norm_num) (params_F_range p).2

theorem u32_onePattern (p : Params) : u32 (onePattern p) = 2 ^ p.F := by
  have h := two_pow_F_le p
  have := u32_wrap32_of_lt (n := 2 ^ p.F) (by omega)
  push_cast at this
  exact this

theorem u32_maskPattern (p : Params) : u32 (maskPattern p) = 2 ^ p.F - 1 := by
  have h := two_pow_F_le p
  have hp : 1 ≤ 2 ^ p.F := Nat.one_le_two_pow
  have := u32_wrap32_of_lt (n := 2 ^ p.F - 1) (by omega)
  push_cast [hp] at this
  exact this

theorem u32_halfPattern (p : Params) : u32 (halfPattern p) = 2 ^ (p.F - 1) := by
  have h : 2 ^ (p.F - 1) ≤ 2 ^ 30 := Nat.pow_le_pow_right (by norm_num) (by have := params_F_range p; omega)
  have := u32_wrap32_of_lt (n := 2 ^ (p.F - 1)) (by omega)
  push_cast at this
  exact this

end Sys2Proof.Machine
end

