-- ==== Sys2Proof/Laws/State.lean ====
section
/-!
SUPPORT. One lemma per field of the state per transition: what each transition writes and what it leaves.
-/

namespace Sys2Proof.Machine

@[simp] theorem nextEdge_params (s : State) : (nextEdge s).params = s.params := rfl

@[simp] theorem nextEdge_phase (s : State) : (nextEdge s).phase = s.phase := rfl

@[simp] theorem nextEdge_drive (s : State) : (nextEdge s).drive = s.drive.tail := rfl

@[simp] theorem nextEdge_sent (s : State) : (nextEdge s).sent = s.sent := rfl

@[simp] theorem nextEdge_got (s : State) : (nextEdge s).got = s.got := rfl

@[simp] theorem nextEdge_edge (s : State) : (nextEdge s).edge = s.edge + 1 := rfl

@[simp] theorem accept_params (c : CmdWord) (n : Nat) (s : State) : (accept c n s).params = s.params := rfl

@[simp] theorem accept_phase (c : CmdWord) (n : Nat) (s : State) : (accept c n s).phase = .busy c n := rfl

@[simp] theorem accept_drive (c : CmdWord) (n : Nat) (s : State) : (accept c n s).drive = s.drive := rfl

@[simp] theorem accept_sent (c : CmdWord) (n : Nat) (s : State) : (accept c n s).sent = s.sent ++ [c] := rfl

@[simp] theorem accept_got (c : CmdWord) (n : Nat) (s : State) : (accept c n s).got = s.got := rfl

@[simp] theorem accept_edge (c : CmdWord) (n : Nat) (s : State) : (accept c n s).edge = s.edge := rfl

@[simp] theorem waitIn_params (c : CmdWord) (n : Nat) (s : State) : (waitIn c n s).params = s.params := rfl

@[simp] theorem waitIn_phase (c : CmdWord) (n : Nat) (s : State) : (waitIn c n s).phase = .busy c n := rfl

@[simp] theorem waitIn_drive (c : CmdWord) (n : Nat) (s : State) : (waitIn c n s).drive = s.drive := rfl

@[simp] theorem waitIn_sent (c : CmdWord) (n : Nat) (s : State) : (waitIn c n s).sent = s.sent := rfl

@[simp] theorem waitIn_got (c : CmdWord) (n : Nat) (s : State) : (waitIn c n s).got = s.got := rfl

@[simp] theorem waitIn_edge (c : CmdWord) (n : Nat) (s : State) : (waitIn c n s).edge = s.edge := rfl

@[simp] theorem deliver_params (r : RspWord) (s : State) : (deliver r s).params = s.params := rfl

@[simp] theorem deliver_phase (r : RspWord) (s : State) : (deliver r s).phase = .idle := rfl

@[simp] theorem deliver_drive (r : RspWord) (s : State) : (deliver r s).drive = s.drive := rfl

@[simp] theorem deliver_sent (r : RspWord) (s : State) : (deliver r s).sent = s.sent := rfl

@[simp] theorem deliver_got (r : RspWord) (s : State) : (deliver r s).got = s.got ++ [r] := rfl

@[simp] theorem deliver_edge (r : RspWord) (s : State) : (deliver r s).edge = s.edge := rfl

@[simp] theorem takeReset_params (s : State) : (takeReset s).params = s.params := rfl

@[simp] theorem takeReset_phase (s : State) : (takeReset s).phase = .idle := rfl

@[simp] theorem takeReset_drive (s : State) : (takeReset s).drive = s.drive := rfl

@[simp] theorem takeReset_sent (s : State) : (takeReset s).sent = [] := rfl

@[simp] theorem takeReset_got (s : State) : (takeReset s).got = [] := rfl

@[simp] theorem takeReset_edge (s : State) : (takeReset s).edge = s.edge := rfl

@[simp] theorem respond_params (x : Response) (s : State) : (respond x s).params = s.params := rfl

@[simp] theorem respond_phase (x : Response) (s : State) : (respond x s).phase = .done (rspWord x) := rfl

@[simp] theorem respond_drive (x : Response) (s : State) : (respond x s).drive = s.drive := rfl

@[simp] theorem respond_sent (x : Response) (s : State) : (respond x s).sent = s.sent := rfl

@[simp] theorem respond_got (x : Response) (s : State) : (respond x s).got = s.got := rfl

@[simp] theorem respond_edge (x : Response) (s : State) : (respond x s).edge = s.edge := rfl

@[simp] theorem resetWith_params (p : Params) (d : List HostPins) : (State.resetWith p d).params = p := rfl

@[simp] theorem resetWith_phase (p : Params) (d : List HostPins) : (State.resetWith p d).phase = .idle := rfl

@[simp] theorem resetWith_drive (p : Params) (d : List HostPins) : (State.resetWith p d).drive = d := rfl

@[simp] theorem resetWith_sent (p : Params) (d : List HostPins) : (State.resetWith p d).sent = [] := rfl

@[simp] theorem resetWith_got (p : Params) (d : List HostPins) : (State.resetWith p d).got = [] := rfl

@[simp] theorem resetWith_edge (p : Params) (d : List HostPins) : (State.resetWith p d).edge = 0 := rfl

/-- The pins at an edge the host drives. -/
theorem pinsOf_of_drive {s : State} {p : HostPins} {ps : List HostPins} (h : s.drive = p :: ps) : pinsOf s = p := by
  simp [pinsOf, h]

/-- Past the end of its drive the host is quiet. -/
theorem pinsOf_of_drive_nil {s : State} (h : s.drive = []) : pinsOf s = quietPins := by
  simp [pinsOf, h]

end Sys2Proof.Machine
end

