-- ==== Sys2Proof/Laws/Exec.lean ====
section
/-!
SUPPORT. What the response of an operation is made of, and what executing one does: it answers with
`fx_exec` of the command in the response latch and changes nothing else (00_scope.md R14, 10_state.md R27).
-/

namespace Sys2Proof.Machine

@[simp] theorem rspStat_append (st : BitVec 2) (r : Word) : rspStat (st ++ r) = st := by
  apply BitVec.eq_of_getLsbD_eq
  intro i hi
  simp only [rspStat, BitVec.getLsbD_extractLsb', BitVec.getLsbD_append]
  simp [hi]

@[simp] theorem rspR_append (st : BitVec 2) (r : Word) : rspR (st ++ r) = r := by
  apply BitVec.eq_of_getLsbD_eq
  intro i hi
  simp only [rspR, BitVec.getLsbD_extractLsb', BitVec.getLsbD_append]
  simp [hi]

@[simp] theorem rspWord_answerOk (r : Word) : rspWord (answerOk r) = 0#2 ++ r := rfl

@[simp] theorem rspWord_raise_divideByZero : rspWord (raiseExc .divideByZero) = 1#2 ++ 0#32 := rfl

@[simp] theorem rspWord_raise_illegalOperation : rspWord (raiseExc .illegalOperation) = 2#2 ++ 0#32 := rfl

@[simp] theorem rspStat_rspWord (x : Response) : rspStat (rspWord x) = statusCode x.stat := by
  simp [rspWord]

@[simp] theorem rspR_rspWord (x : Response) : rspR (rspWord x) = x.r := by
  simp [rspWord]

/-- Executing an operation answers a next state, in which the response latch holds `fx_exec` of the
command and every other field is as before. -/
theorem exec_eq_finish_fxExec (i : Instr) (s : State) : exec i s = finish (fxExec s.params i) s := by
  cases i <;> rfl

/-- `exec` written out as a state: only the phase changes. -/
theorem exec_eq_next (i : Instr) (s : State) :
    exec i s = .next { s with phase := .done (rspWord (fxExec s.params i)) } := by
  rw [exec_eq_finish_fxExec]; rfl

/-- The divider with a zero divisor raises DivideByZero. -/
theorem fxDiv_zero (p : Params) (a : Word) : fxDiv p a 0#32 = raiseExc .divideByZero := rfl

theorem fxDivn_zero (p : Params) (a : Word) : fxDivn p a 0#32 = raiseExc .divideByZero := rfl

theorem u32_ne_zero {b : Word} (h : b ≠ 0#32) : u32 b ≠ 0 := fun h' =>
  h (BitVec.eq_of_toNat_eq h')

theorem fxDiv_of_ne_zero (p : Params) (a : Word) {b : Word} (h : b ≠ 0#32) :
    fxDiv p a b = answerOk (wrap32 ((s32 a * 2 ^ p.F).tdiv (s32 b))) := by
  simp [fxDiv, u32_ne_zero h, truncDiv_eq_tdiv]

theorem fxDivn_of_ne_zero (p : Params) (a : Word) {b : Word} (h : b ≠ 0#32) :
    fxDivn p a b = answerOk (wrap32 ((s32 (a <<< p.F)).tdiv (s32 b))) := by
  simp [fxDivn, u32_ne_zero h, truncDiv_eq_tdiv, shl32_eq_shiftLeft]

/-- The rescaled fraction in closed form (40_make.md R72): the sixteen extra bits cancel. -/
theorem fracBits_eq (p : Params) (b : Word) : fracBits p b = ((u32 b * 2 ^ p.F / p.Q : Nat) : Int) := by
  have h : (u32 b * 2 ^ p.F * 65536 / p.Q) / 2 ^ 16 = u32 b * 2 ^ p.F / p.Q := by
    rw [Nat.div_div_eq_div_mul]
    exact Nat.mul_div_mul_right _ _ (by norm_num)
  simp only [fracBits, shiftRight, floorDiv]
  rw [← h]
  push_cast
  rfl

end Sys2Proof.Machine
end

