-- ==== Sys2Proof/Laws/PerInstr.lean ====
section
/-!
SUPPORT. The family Encoding, one lemma per constructor: where the operation code and the fields of an
instruction stand in its command word (30_encoding.md R50).
-/

namespace Sys2Proof.Laws.Encoding

/-- The command word of `i` holds its code in bits 67:64, its `A` in bits 63:32 and its `B` in bits 31:0. -/
def Statement (i : Instr) : Prop :=
  cmdOp (encode i) = opCodeOf i ∧ cmdA (encode i) = i.fieldA ∧ cmdB (encode i) = i.fieldB

theorem statement_of_encode (i : Instr) : Statement i := by
  simp [Statement, encode]

theorem add (a b : Word) : Statement (.add a b) := statement_of_encode _

theorem sub (a b : Word) : Statement (.sub a b) := statement_of_encode _

theorem mul (a b : Word) : Statement (.mul a b) := statement_of_encode _

theorem div (a b : Word) : Statement (.div a b) := statement_of_encode _

theorem muln (a b : Word) : Statement (.muln a b) := statement_of_encode _

theorem divn (a b : Word) : Statement (.divn a b) := statement_of_encode _

theorem floor (a b : Word) : Statement (.floor a b) := statement_of_encode _

theorem ceil (a b : Word) : Statement (.ceil a b) := statement_of_encode _

theorem resolvet (a b : Word) : Statement (.resolvet a b) := statement_of_encode _

theorem resolver (a b : Word) : Statement (.resolver a b) := statement_of_encode _

theorem maker (a b : Word) : Statement (.maker a b) := statement_of_encode _

theorem maked (a b : Word) : Statement (.maked a b) := statement_of_encode _

theorem reservedC (a b : Word) : Statement (.reservedC a b) := statement_of_encode _

theorem reservedD (a b : Word) : Statement (.reservedD a b) := statement_of_encode _

theorem reservedE (a b : Word) : Statement (.reservedE a b) := statement_of_encode _

theorem reservedF (a b : Word) : Statement (.reservedF a b) := statement_of_encode _

end Sys2Proof.Laws.Encoding
end

