-- ==== Sys2Proof/Laws/Step.lean ====
section
/-!
SUPPORT. Everything one rising edge can do, said once.
-/

namespace Sys2Proof.Machine

/-- A step in which Compute is not taken. -/
theorem step_of_move {s t : State} (h : edgeAction s = .move t) : step s = .next t := by
  simp [step, h]

/-- A step in which Compute is taken. -/
theorem step_of_compute {s t : State} {c : CmdWord} (h : edgeAction s = .compute c t) :
    step s = .next (respond (fxExec t.params (decode c)) t) := by
  simp [step, h, exec_eq_finish_fxExec, finish]

theorem edgeAction_of_reset {s : State} (h : (pinsOf s).rst = true) :
    edgeAction s = .move (takeReset (nextEdge s)) := by
  simp [edgeAction, h]

theorem edgeAction_idle {s : State} (hr : (pinsOf s).rst = false) (hp : s.phase = .idle) :
    edgeAction s = if (pinsOf s).reqValid then
        acceptAction (pinsOf s).reqCmd (Config.latency s.params s.edge (pinsOf s).reqCmd) (nextEdge s)
      else .move (nextEdge s) := by
  simp [edgeAction, hr, hp]

theorem edgeAction_busy {s : State} {c : CmdWord} {n : Nat} (hr : (pinsOf s).rst = false)
    (hp : s.phase = .busy c n) : edgeAction s = busyAction c n (nextEdge s) := by
  simp [edgeAction, hr, hp]

theorem edgeAction_done {s : State} {r : RspWord} (hr : (pinsOf s).rst = false) (hp : s.phase = .done r) :
    edgeAction s = if (pinsOf s).rspReady then .move (deliver r (nextEdge s)) else .move (nextEdge s) := by
  simp [edgeAction, hr, hp]

/-- THE INVERSION OF A STEP: a step always answers a next state, and it is one of these: Reset; Accept
with Compute at the same edge, Accept, or no offer in IDLE; Compute or waiting in BUSY; Deliver or holding
in DONE. -/
theorem step_cases (s : State) :
    ((pinsOf s).rst = true ∧ step s = .next (takeReset (nextEdge s))) ∨
    ((pinsOf s).rst = false ∧
      ((s.phase = .idle ∧ (pinsOf s).reqValid = true ∧
          ((Config.latency s.params s.edge (pinsOf s).reqCmd = 0 ∧
            step s = .next (respond (fxExec s.params (decode (pinsOf s).reqCmd))
              (accept (pinsOf s).reqCmd 0 (nextEdge s)))) ∨
           ∃ n, Config.latency s.params s.edge (pinsOf s).reqCmd = n + 1 ∧
            step s = .next (accept (pinsOf s).reqCmd n (nextEdge s)))) ∨
       (s.phase = .idle ∧ (pinsOf s).reqValid = false ∧ step s = .next (nextEdge s)) ∨
       (∃ c, s.phase = .busy c 0 ∧ step s = .next (respond (fxExec s.params (decode c)) (nextEdge s))) ∨
       (∃ c n, s.phase = .busy c (n + 1) ∧ step s = .next (waitIn c n (nextEdge s))) ∨
       (∃ r, s.phase = .done r ∧ (pinsOf s).rspReady = true ∧ step s = .next (deliver r (nextEdge s))) ∨
       (∃ r, s.phase = .done r ∧ (pinsOf s).rspReady = false ∧ step s = .next (nextEdge s)))) := by
  rcases hr : (pinsOf s).rst with _ | _
  · refine .inr ⟨rfl, ?_⟩
    rcases hp : s.phase with _ | ⟨c, _ | n⟩ | r
    · rcases hv : (pinsOf s).reqValid with _ | _
      · exact .inr (.inl ⟨rfl, rfl, step_of_move (by simp [edgeAction_idle hr hp, hv])⟩)
      · refine .inl ⟨rfl, rfl, ?_⟩
        rcases hl : Config.latency s.params s.edge (pinsOf s).reqCmd with _ | n
        · exact .inl ⟨rfl, step_of_compute (by simp [edgeAction_idle hr hp, hv, hl, acceptAction])⟩
        · exact .inr ⟨n, rfl, step_of_move (by simp [edgeAction_idle hr hp, hv, hl, acceptAction])⟩
    · exact .inr (.inr (.inl ⟨c, rfl, step_of_compute (by simp [edgeAction_busy hr hp, busyAction])⟩))
    · exact .inr (.inr (.inr (.inl ⟨c, n, rfl, step_of_move (by simp [edgeAction_busy hr hp, busyAction])⟩)))
    · rcases hd : (pinsOf s).rspReady with _ | _
      · exact .inr (.inr (.inr (.inr (.inr ⟨r, rfl, rfl, step_of_move (by simp [edgeAction_done hr hp, hd])⟩))))
      · exact .inr (.inr (.inr (.inr (.inl ⟨r, rfl, rfl, step_of_move (by simp [edgeAction_done hr hp, hd])⟩))))
  · exact .inl ⟨rfl, step_of_move (edgeAction_of_reset hr)⟩

end Sys2Proof.Machine
end

