-- ==== Sys2Proof/Laws/Run.lean ====
section
/-!
SUPPORT. Runs of the machine: peeling the first step off, and the one induction behind every claim that
holds along a run.
-/

namespace Sys2Proof.Machine

/-- The first step of a run. -/
theorem run_of_step {k : Nat} {s t : State} (h : step s = .next t) :
    Host.Core.run core (k + 1) s = Host.Core.run core k t := by
  have h' : core.step s = .next t := h
  simp only [Host.Core.run, h']

/-- What every step keeps holds at the end of every run from a state that has it. -/
theorem run_keeps {P : State → Prop} (hs : ∀ s t, P s → step s = .next t → P t) :
    ∀ {k : Nat} {s t : State}, P s → Host.Core.run core k s = .next t → P t
  | 0, _, _, h, e => by cases e; exact h
  | k + 1, s, t, h, e => by
    rcases hu : step s with u | x | x
    · exact run_keeps hs (hs s u h hu) (by rwa [run_of_step hu] at e)
    · cases x
    · have h' : core.step s = .refused x := hu
      simp only [Host.Core.run, h'] at e
      cases e

end Sys2Proof.Machine
end

