-- ==== Sys2Proof/Tests/Slice0.lean ====
section
/-!
SUPPORT. The model's own tests. Expected values are those the spec prints in its instruction rules and in
95_test_vectors.md (sections 3, 4 and 5); the rest are the witnesses that the hypotheses of the statements can
be met.
-/

namespace Sys2Proof.Tests

open Sys2Proof.Machine

/-- A unit with the command word `c` accepted and no wait left, under a quiet host. -/
def busyWith (p : Params) (c : CmdWord) : State :=
  { State.resetWith p [] with phase := .busy c 0, sent := [c] }

/-- The response word one step produces from that state. -/
def stepAnswers (p : Params) (c : CmdWord) : Option RspWord :=
  match step (busyWith p c) with
  | .next t =>
    match t.phase with
    | .done r => some r
    | .idle => none
    | .busy _ _ => none
  | .fault _ => none
  | .refused _ => none

/-- The state of a step, where it is a next state. -/
def after (s : State) : Option State :=
  match step s with
  | .next t => some t
  | .fault _ => none
  | .refused _ => none

def p8 : Params := Params.default
def p16 : Params := { F := 16, Q := 1000 }
def p31 : Params := { F := 31, Q := 1000 }
def p1 : Params := { F := 1, Q := 1000 }
def p30 : Params := { F := 30, Q := 1000 }
def p8q256 : Params := { F := 8, Q := 256 }
def p8q65536 : Params := { F := 8, Q := 65536 }

/-! ### WellFormed: the terms each check refuses -/

/-- R8: `F` below its range. -/
theorem test_params_F_zero : paramsOk 0 1000 = false := by decide

/-- R8: `F` above its range. -/
theorem test_params_F_32 : paramsOk 32 1000 = false := by decide

/-- R6: `Q` below its range (it is a divisor). -/
theorem test_params_Q_zero : paramsOk 8 0 = false := by decide

/-- R6: `Q` above its range. -/
theorem test_params_Q_65537 : paramsOk 8 65537 = false := by decide

theorem test_params_ends : paramsOk 1 1 = true ∧ paramsOk 31 65536 = true := by decide

/-- R50: a number of 69 bits is no command word. -/
theorem test_word_too_wide : isCmdNumber (2 ^ 68) = false ∧ isCmdNumber (2 ^ 68 - 1) = true := by decide

/-- R58: the assembler writes `B = 0` in form FU and has no mnemonic for a reserved code. -/
theorem test_assembler_refuses :
    Instr.assemblerWrites (.floor 0x180#32 1#32) = false ∧
    Instr.assemblerWrites (.reservedC 0#32 0#32) = false ∧
    Instr.assemblerWrites (.floor 0x180#32 0#32) = true := by decide

/-! ### Decoding: words the spec prints -/

theorem test_decode_add : decode 0x000000140000000C0#68 = .add 0x140#32 0xC0#32 := by decide
theorem test_decode_sub : decode 0x100000140000000C0#68 = .sub 0x140#32 0xC0#32 := by decide
theorem test_decode_mul : decode 0x200000140000000C0#68 = .mul 0x140#32 0xC0#32 := by decide
theorem test_decode_div : decode 0x30000050000000200#68 = .div 0x500#32 0x200#32 := by decide
theorem test_decode_muln : decode 0x400000140000000C0#68 = .muln 0x140#32 0xC0#32 := by decide
theorem test_decode_divn : decode 0x50000050000000200#68 = .divn 0x500#32 0x200#32 := by decide
theorem test_decode_floor : decode 0x600000180FFFFFFFF#68 = .floor 0x180#32 0xFFFFFFFF#32 := by decide
theorem test_decode_ceil : decode 0x70000018000000000#68 = .ceil 0x180#32 0#32 := by decide
theorem test_decode_resolvet : decode 0x800000180DEADBEEF#68 = .resolvet 0x180#32 0xDEADBEEF#32 := by decide
theorem test_decode_resolver : decode 0x90000020000000000#68 = .resolver 0x200#32 0#32 := by decide
theorem test_decode_maker : decode 0xA0000000100000040#68 = .maker 1#32 0x40#32 := by decide
theorem test_decode_maked : decode 0xB00000001000000FA#68 = .maked 1#32 250#32 := by decide
theorem test_decode_reservedC : decode 0xC0000000000000000#68 = .reservedC 0#32 0#32 := by decide
theorem test_decode_reservedD : decode 0xD0000050000000200#68 = .reservedD 0x500#32 0x200#32 := by decide
theorem test_decode_reservedE :
    decode 0xE12345678FFFFFFFF#68 = .reservedE 0x12345678#32 0xFFFFFFFF#32 := by decide
theorem test_decode_reservedF :
    decode 0xFFFFFFFFFFFFFFFFF#68 = .reservedF 0xFFFFFFFF#32 0xFFFFFFFF#32 := by decide

theorem test_encode_maked : encode (.maked 1#32 250#32) = 0xB00000001000000FA#68 := by decide

theorem test_decodeTableWord :
    decodeTableWord 68 0x30000050000000200 = some (.div 0x500#32 0x200#32) ∧
    decodeTableWord 72 (2 ^ 68) = none := by decide

/-! ### One step of each instruction (95_test_vectors.md section 3) -/

/-- Section 3.3: positive overflow wraps, it does not saturate. -/
theorem test_add_wraps : stepAnswers p8 0x07FFFFFFF00000001#68 = some 0x080000000#34 := by decide

/-- Section 3.8, `F = 16`: the adder does not read `F`. -/
theorem test_add_F16 : stepAnswers p16 0x0000140000000BFFF#68 = some 0x00001FFFF#34 := by decide

/-- Section 3.3: the order of the operands. -/
theorem test_sub_order : stepAnswers p8 0x1000000C000000140#68 = some 0x0FFFFFF80#34 := by decide

/-- Section 3.3: the most negative value has no negation. -/
theorem test_sub_min : stepAnswers p8 0x10000000080000000#68 = some 0x080000000#34 := by decide

/-- Section 3.4: the discarded bits round toward negative infinity. -/
theorem test_mul_floors : stepAnswers p8 0x2FFFFFFFF00000001#68 = some 0x0FFFFFFFF#34 := by decide

/-- Section 3.4: the product is widened. -/
theorem test_mul_wide : stepAnswers p8 0x27FFFFFFF00000100#68 = some 0x07FFFFFFF#34 := by decide

/-- Section 3.4: the same operands in native width. -/
theorem test_muln_narrow : stepAnswers p8 0x47FFFFFFF00000100#68 = some 0x0FFFFFFFF#34 := by decide

/-- Section 3.8, `F = 16`: 1.25 times 0.75 already wraps. -/
theorem test_muln_F16 : stepAnswers p16 0x4000140000000C000#68 = some 0x0FFFFF000#34 := by decide

/-- Section 3.5: the quotient goes toward zero. -/
theorem test_div_toward_zero : stepAnswers p8 0x3FFFFFF0000000300#68 = some 0x0FFFFFFAB#34 := by decide

/-- Section 3.7: DivideByZero. -/
theorem test_div_by_zero : stepAnswers p8 0x30000050000000000#68 = some 0x100000000#34 := by decide

/-- Section 3.5: the one overflowing 32-bit division. -/
theorem test_divn_wraps : stepAnswers p8 0x500800000FFFFFFFF#68 = some 0x080000000#34 := by decide

/-- Section 3.5: `0 / 0` raises too. -/
theorem test_divn_by_zero : stepAnswers p8 0x50000000000000000#68 = some 0x100000000#34 := by decide

/-- Section 3.6: negative values go down. -/
theorem test_floor_negative : stepAnswers p8 0x6FFFFFE8000000000#68 = some 0x0FFFFFE00#34 := by decide

/-- Section 3.6: `B` is ignored. -/
theorem test_floor_ignores_B : stepAnswers p8 0x600000180FFFFFFFF#68 = some 0x000000100#34 := by decide

/-- Section 3.6: the first inexact case. -/
theorem test_ceil_wraps : stepAnswers p8 0x77FFFFF0100000000#68 = some 0x080000000#34 := by decide

/-- Section 3.6: a whole value is unchanged. -/
theorem test_ceil_whole : stepAnswers p8 0x70000030000000000#68 = some 0x000000300#34 := by decide

/-- Section 3.2: `-1.25` gives `-2`. -/
theorem test_resolvet_negative : stepAnswers p8 0x8FFFFFEC000000000#68 = some 0x0FFFFFFFE#34 := by decide

/-- Section 3.2: `B` is ignored. -/
theorem test_resolvet_ignores_B : stepAnswers p8 0x800000180DEADBEEF#68 = some 0x000000001#34 := by decide

/-- Section 3.2: a tie goes up. -/
theorem test_resolver_tie : stepAnswers p8 0x9FFFFFE8000000000#68 = some 0x0FFFFFFFF#34 := by decide

/-- Section 3.8, `F = 31`: the internal sum wraps. -/
theorem test_resolver_F31 : stepAnswers p31 0x94000000000000000#68 = some 0x0FFFFFFFF#34 := by decide

/-- Section 3.1: a negative whole part with a fraction. -/
theorem test_maker_negative : stepAnswers p8 0xAFFFFFFFE00000080#68 = some 0x0FFFFFE80#34 := by decide

/-- Section 3.1: an out-of-domain fraction is ORed, not added. -/
theorem test_maker_or : stepAnswers p8 0xA0000000100000100#68 = some 0x000000100#34 := by decide

/-- Section 3.1: the largest `B`. -/
theorem test_maked_large : stepAnswers p8 0xB00000000FFFFFFFF#68 = some 0x04189374B#34 := by decide

/-- Section 3.8, `F = 31`. -/
theorem test_maked_F31 : stepAnswers p31 0xB00000000000003E7#68 = some 0x07FDF3B64#34 := by decide

/-- Section 3.7: with `B = 0` a reserved code is no division by zero. -/
theorem test_reservedC : stepAnswers p8 0xC0000000000000000#68 = some 0x200000000#34 := by decide

theorem test_reservedD : stepAnswers p8 0xD0000050000000200#68 = some 0x200000000#34 := by decide
theorem test_reservedE : stepAnswers p8 0xE12345678FFFFFFFF#68 = some 0x200000000#34 := by decide
theorem test_reservedF : stepAnswers p8 0xFFFFFFFFFFFFFFFFF#68 = some 0x200000000#34 := by decide

/-! ### Assembler (30_encoding.md R58, R59) -/

/-- Program 1 of section 4, line 2: the command word. -/
theorem test_assemble_maked :
    (assembleLine [] { binds := some "y", mnemonic := .maked, operands := [.integer 0, .integer 750] }).map
      encode = some 0xB00000000000002EE#68 := by decide

/-- A name stands for the `R` of the line that bound it (program 1, lines 1 to 3). -/
theorem test_run_lines :
    (runLines p8 []
      [{ binds := some "x", mnemonic := .maked, operands := [.integer 1, .integer 250] },
       { binds := some "y", mnemonic := .maked, operands := [.integer 0, .integer 750] },
       { binds := some "s", mnemonic := .add, operands := [.name "x", .name "y"] }]).map
      (List.map rspWord) = some [0x000000140#34, 0x0000000C0#34, 0x000000200#34] := by decide

/-- R58: the two lines it prints with their encodings. -/
theorem test_assembleText :
    assembleText [] "ADD 0x00000140, 0x000000C0".toList = some "0x000000140000000C0".toList ∧
    assembleText [] "MAKED 1, 250".toList = some "0xB00000001000000FA".toList := by decide

/-- Program 2 of section 4: a name, a mnemonic, an operand and a comment; a negative integer. -/
theorem test_readLine :
    readLine "c    = FROMINT 3         ; 3.0".toList =
      some { binds := some "c", mnemonic := .fromint, operands := [.integer 3] } ∧
    readLine "s1 = ADD a_1, -1".toList =
      some { binds := some "s1", mnemonic := .add, operands := [.name "a_1", .integer (-1)] } := by decide

/-- Texts that are no lines: nine hexadecimal digits, a name that starts with a digit, three operands, an
unknown mnemonic. -/
theorem test_readLine_refuses :
    readLine "FLOOR 0x123456789".toList = none ∧ readLine "1x = FLOOR 1".toList = none ∧
    readLine "ADD 1, 2, 3".toList = none ∧ readLine "NEG 1".toList = none := by decide

/-- No word for an operand out of range, for an unbound name, or for a missing operand. -/
theorem test_assembler_operands :
    operandWord [] (.integer (2 ^ 32)) = none ∧ operandWord [] (.integer (-2 ^ 31 - 1)) = none ∧
    operandWord [] (.hexword (2 ^ 32)) = none ∧ operandWord [] (.name "x") = none ∧
    commandOf .add [1#32] = none ∧ commandOf .floor [1#32, 0#32] = none := by decide

/-! ### The handshake (95_test_vectors.md section 5) -/

def addWord : CmdWord := 0x000000140000000C0#68
def divZeroWord : CmdWord := 0x30000050000000000#68
def subWord : CmdWord := 0x100000140000000C0#68

/-- A host that offers `c`, with `rsp_ready` as given. -/
def offering (c : CmdWord) (ready : Bool) : HostPins :=
  { rst := false, reqValid := true, reqCmd := c, rspReady := ready }

/-- A host that resets, offers `c` and is ready. -/
def resetting (c : CmdWord) : HostPins := { rst := true, reqValid := true, reqCmd := c, rspReady := true }

/-- A host that only takes a response. -/
def taking : HostPins := { quietPins with rspReady := true }

/-- Trace T1, edge 2: an offer in BUSY is ignored. -/
theorem test_T1_offer_ignored :
    (after { State.resetWith p8 [offering divZeroWord false] with phase := .busy addWord 1 }).map
      (fun t => (t.phase, t.sent)) = some (.busy addWord 0, []) := by decide

/-- Trace T1, edge 3: Compute. -/
theorem test_T1_compute :
    (after { State.resetWith p8 [offering divZeroWord false] with phase := .busy addWord 0 }).map
      (fun t => t.phase) = some (.done 0x000000200#34) := by decide

/-- Trace T1, edge 4: the host is not ready. -/
theorem test_T1_hold :
    (after { State.resetWith p8 [offering divZeroWord false] with phase := .done 0x000000200#34 }).map
      (fun t => (t.phase, t.got)) = some (.done 0x000000200#34, []) := by decide

/-- Trace T1, edge 5: Deliver, and the offer is not accepted at this edge. -/
theorem test_T1_deliver :
    (after { State.resetWith p8 [offering divZeroWord true] with phase := .done 0x000000200#34 }).map
      (fun t => (t.phase, t.got, t.sent)) = some (.idle, [0x000000200#34], []) := by decide

/-- Trace T1, edge 9: `rsp_ready` in IDLE has no effect. -/
theorem test_T1_idle : (after (State.resetWith p8 [taking])).map (fun t => t.phase) = some .idle := by decide

/-- Trace T2, edges 2, 3 and 6: reset in BUSY, IDLE and DONE. -/
theorem test_T2_reset :
    (after { State.resetWith p8 [resetting subWord] with phase := .busy addWord 0 }).map
      (fun t => t.phase) = some .idle ∧
    (after (State.resetWith p8 [resetting subWord])).map (fun t => (t.phase, t.sent)) = some (.idle, []) ∧
    (after { State.resetWith p8 [resetting subWord] with phase := .done 0x000000080#34 }).map
      (fun t => (t.phase, t.got)) = some (.idle, []) := by decide

/-- The outputs in the three phases (R29). -/
theorem test_outputs :
    reqReady State.reset = true ∧ rspValid State.reset = false ∧
    reqReady (busyWith p8 addWord) = false ∧ rspValid (busyWith p8 addWord) = false ∧
    rspValid { State.reset with phase := .done 0x200#34 } = true ∧
    rspData { State.reset with phase := .done 0x200#34 } = 0x200#34 := by decide

/-- From reset with a placed command, the next step executes it. -/
theorem test_withFetchWord :
    (after (State.reset.withFetchWord 68 0x30000050000000200)).map (fun t => t.phase) =
      some (.done 0x000000280#34) := by decide

/-! ### Witnesses: the hypotheses of each statement can be met -/

theorem test_witness_CommandWordHasThreeFields :
    (2 ^ 68 : Nat) ≤ 2 ^ 68 ∧ (2 ^ 68 - 1 : Nat) < 2 ^ 68 := by decide

theorem test_witness_FromIntIsMakerZero :
    operandWord [] (.integer (-2 ^ 31)) = some 0x80000000#32 ∧
    operandWord [] (.integer (2 ^ 32 - 1)) = some 0xFFFFFFFF#32 ∧
    operandWord [] (.hexword 0xFFFFFFFF) = some 0xFFFFFFFF#32 ∧
    operandWord [("x", 3#32)] (.name "x") = some 3#32 := by decide

theorem test_witness_AssemblerWritesOnlyItsForms :
    assembleLine [] { binds := none, mnemonic := .floor, operands := [.hexword 0x180] } =
      some (.floor 0x180#32 0#32) ∧
    assembleLine [] { binds := none, mnemonic := .fromint, operands := [.integer 3] } =
      some (.maker 3#32 0#32) := by decide

/-- The four cases of the status, one command each. -/
theorem test_witness_StatusOfEveryOperation :
    ((opCodeOf (.div 0#32 0#32) = 0x3#4 ∨ opCodeOf (.div 0#32 0#32) = 0x5#4) ∧
      (Instr.div 0#32 0#32).fieldB = 0#32) ∧
    ((opCodeOf (.divn 5#32 0#32) = 0x3#4 ∨ opCodeOf (.divn 5#32 0#32) = 0x5#4) ∧
      (Instr.divn 5#32 0#32).fieldB = 0#32) ∧
    0xC ≤ (opCodeOf (.reservedC 0#32 0#32)).toNat ∧ ¬ 0xC ≤ (opCodeOf (.maked 0#32 0#32)).toNat := by decide

theorem test_witness_ReservedCodesAnswerIllegalOperation :
    0xC * 2 ^ 64 ≤ (0xC0000000000000000#68 : CmdWord).toNat ∧
    0xC * 2 ^ 64 ≤ (0xFFFFFFFFFFFFFFFFF#68 : CmdWord).toNat ∧
    ¬ 0xC * 2 ^ 64 ≤ (0xBFFFFFFFFFFFFFFFF#68 : CmdWord).toNat ∧
    (offering 0xC0000000000000000#68 true).rst = false ∧
    (offering 0xC0000000000000000#68 true).reqValid = true ∧
    0xC * 2 ^ 64 ≤ (offering 0xC0000000000000000#68 true).reqCmd.toNat := by decide

theorem test_witness_ResponseDependsOnCommandAndParametersOnly :
    State.reset.params = p8 ∧ (busyWith p8 addWord).params = p8 := by decide

theorem test_witness_OutputsFollowThePhase :
    State.reset.phase = .idle ∧
    ({ State.reset with phase := .done 0x200#34 } : State).phase = .done 0x200#34 := by decide

theorem test_witness_AcceptTakesTheOfferedCommand :
    (State.resetWith p8 [offering addWord false]).drive = offering addWord false :: [] ∧
    (State.resetWith p8 [offering addWord false]).phase = .idle ∧
    (offering addWord false).rst = false ∧ (offering addWord false).reqValid = true ∧
    (busyWith p8 addWord).phase ≠ .idle ∧ quietPins.reqValid = false ∧ (resetting subWord).rst = true := by
  decide

theorem test_witness_StepRunsTheDecodedCommand :
    (busyWith p8 addWord).phase = .busy addWord 0 ∧ (pinsOf (busyWith p8 addWord)).rst = false ∧
    (State.resetWith p8 [offering addWord true]).drive = offering addWord true :: [] ∧
    (State.resetWith p8 [offering addWord true]).phase = .idle ∧
    (offering addWord true).rst = false ∧ (offering addWord true).reqValid = true := by decide

/-- Two edges to wait, then a reset that comes too late to matter; and no wait with no drive left. -/
theorem test_witness_EveryAcceptedCommandCompletes :
    (∀ p ∈ [quietPins, taking, offering addWord true, resetting addWord].take (2 + 1), p.rst = false) ∧
    (busyWith p8 addWord).phase = .busy addWord 0 ∧
    (∀ p ∈ (busyWith p8 addWord).drive.take (0 + 1), p.rst = false) := by decide

theorem test_witness_DeliverOrHoldTheResponse :
    (taking.rst = false ∧ taking.rspReady = true) ∧
    (∀ p ∈ [offering addWord false, quietPins, taking].take 2, p.rst = false ∧ p.rspReady = false) := by
  decide

theorem test_witness_ResetOverridesEverything :
    0 + 1 ≤ [resetting addWord].length ∧ (∀ p ∈ [resetting addWord].take (0 + 1), p.rst = true) ∧
    1 + 1 ≤ [resetting addWord, resetting subWord, quietPins].length ∧
    (∀ p ∈ [resetting addWord, resetting subWord, quietPins].take (1 + 1), p.rst = true) := by decide

theorem test_witness_IdleWaitsForACommand :
    State.reset.phase = .idle ∧
    (∀ p ∈ [quietPins, taking, offering addWord true].take 2, p.rst = false ∧ p.reqValid = false) := by decide

/-- A state that holds a command, meets both invariants and steps to a response. -/
theorem test_witness_EveryStepKeepsResponsesPaired :
    Paired (busyWith p8 addWord) ∧
    step (busyWith p8 addWord) =
      .next { busyWith p8 addWord with phase := .done 0x000000200#34, edge := 1 } := by
  constructor
  · unfold Paired; decide
  · rfl

theorem test_witness_EveryStepKeepsResponsesLegal :
    ResponsesLegal { State.reset with phase := .done 0x100000000#34, got := [0x000000200#34] } ∧
    step { State.reset with phase := .done 0x100000000#34, got := [0x000000200#34] } =
      .next { State.reset with phase := .done 0x100000000#34, got := [0x000000200#34], edge := 1 } := by
  constructor
  · refine ⟨fun r h => ?_, fun r h => ?_⟩
    · injection h with h; subst h; unfold LegalRsp; decide
    · rw [List.mem_singleton.mp h]; unfold LegalRsp; decide
  · rfl

theorem test_witness_NoStepChangesTheParameters :
    step State.reset = .next { State.reset with edge := 1 } := rfl

/-- A run of one edge that resets, ending in IDLE. -/
theorem test_witness_EveryRunAnswersInOrder :
    Host.Core.run Sys2Proof.core 1 (State.resetWith p16 [resetting addWord]) =
      .next { State.resetWith p16 [] with edge := 1 } := rfl

theorem test_witness_BuildFailsOutOfRange :
    (1 ≤ 1 ∧ 1 ≤ 31 ∧ 1 ≤ 1 ∧ 1 ≤ 65536) ∧ (1 ≤ 31 ∧ 31 ≤ 31 ∧ 1 ≤ 65536 ∧ 65536 ≤ 65536) ∧
    ¬ (1 ≤ 0 ∧ 0 ≤ 31 ∧ 1 ≤ 1000 ∧ 1000 ≤ 65536) ∧ ¬ (1 ≤ 32 ∧ 32 ≤ 31 ∧ 1 ≤ 1000 ∧ 1000 ≤ 65536) ∧
    ¬ (1 ≤ 8 ∧ 8 ≤ 31 ∧ 1 ≤ 0 ∧ 0 ≤ 65536) ∧ ¬ (1 ≤ 8 ∧ 8 ≤ 31 ∧ 1 ≤ 65537 ∧ 65537 ≤ 65536) := by decide

theorem test_witness_DerivedConstants : 31 < 32 ∧ p31.F = 31 ∧ p8.F = 8 := by decide

/-- Operands at the edge of each exactness condition (95_test_vectors.md, the last rows marked exact). -/
theorem test_witness_ResultsAreExactWithinTheirConditions :
    exactCond p8 (.add 0x7FFFFFFE#32 1#32) ∧ exactCond p8 (.sub 0x80000001#32 1#32) ∧
    exactCond p8 (.mul 0x7FFFFFFF#32 0x100#32) ∧ exactCond p8 (.div 0x800000#32 0xFFFFFFFF#32) ∧
    exactCond p8 (.muln 0xFFFF0000#32 0x8000#32) ∧ exactCond p16 (.divn 0x7FFF#32 0x10000#32) ∧
    exactCond p8 (.ceil 0x7FFFFF00#32 0#32) ∧ exactCond p31 (.resolver 0x3FFFFFFF#32 0#32) ∧
    exactCond p8 (.maker 0x7FFFFF#32 0xFF#32) ∧ exactCond p8 (.maked 0xFF800000#32 0x3E7#32) := by
  unfold exactCond; decide

/-- The largest sum that fits, and a zero operand. -/
theorem test_witness_AddWrapsModulo :
    Fits32 ((0x7FFFFFFE#32 : Word).toInt + (1#32 : Word).toInt) ∧
    Fits32 ((0x80000000#32 : Word).toInt + (0#32 : Word).toInt) ∧
    ¬ Fits32 ((0x7FFFFFFF#32 : Word).toInt + (1#32 : Word).toInt) := by decide

/-- The smallest difference that fits, and the two cases of negation. -/
theorem test_witness_SubWrapsModulo :
    Fits32 ((0x80000001#32 : Word).toInt - (1#32 : Word).toInt) ∧
    (0x80000001#32 : Word) ≠ 0x80000000#32 ∧
    ¬ Fits32 ((0x80000000#32 : Word).toInt - (1#32 : Word).toInt) := by decide

/-- `-256.0 * 128.0` and the largest factor by `ONE` at `F = 30`; `ONE` at `F = 31` (R100). -/
theorem test_witness_MulIsTheWidenedDatapath :
    Fits32 ((0x7FFFFFFF#32 : Word).toInt * (0x100#32 : Word).toInt / 2 ^ p8.F) ∧
    (0x40000000#32 : Word) = onePattern p30 ∧ p30.F ≤ 30 ∧
    (0x80000000#32 : Word) = onePattern p31 ∧ p31.F = 31 := by decide

/-- A bit number of the range at each `F`. -/
theorem test_witness_MulOverflowByProductBits :
    31 + p8.F ≤ 39 ∧ 39 ≤ 63 ∧ 31 + p31.F ≤ 62 ∧ 62 ≤ 63 := by decide

/-- A product of exactly `-2^31`, bit numbers at the ends of both ranges, and `ONE`. -/
theorem test_witness_MulnIsTheNativeDatapath :
    Fits32 ((0xFFFF0000#32 : Word).toInt * (0x8000#32 : Word).toInt) ∧
    23 < 32 - p8.F ∧ 32 - p8.F ≤ 24 ∧ 24 < 32 ∧ (0x100#32 : Word) = onePattern p8 := by decide

/-- A zero divisor; the exact quotient `-2^31` of section 3.5; `ONE` at `F = 30`; equal operands. -/
theorem test_witness_DivIsTheWidenedDatapath :
    (0xFFFFFFFF#32 : Word) ≠ 0#32 ∧
    Fits32 (((0x800000#32 : Word).toInt * 2 ^ p8.F).tdiv (0xFFFFFFFF#32 : Word).toInt) ∧
    (0x40000000#32 : Word) = onePattern p30 ∧ p30.F ≤ 30 ∧ (0x40000000#32 : Word) ≠ 0#32 := by decide

/-- Reals whose quotient is in range: `5.0 / 2.0`. -/
theorem test_witness_DivIsTheWidenedDatapath_range :
    |real p8 0x500#32 / real p8 0x200#32| < 2 ^ (31 - p8.F) := by
  have h₁ : s32 0x500#32 = 0x500 := by decide
  have h₂ : s32 0x200#32 = 0x200 := by decide
  have h₃ : p8.F = 8 := rfl
  rw [real, real, h₁, h₂, h₃]
  norm_num

/-- The one overflowing case, and one that fits, at the smallest such divisor. -/
theorem test_witness_DivOverflowWithLargeDivisor :
    (0xFFFFFF00#32 : Word) ≠ 0#32 ∧ (0xFFFFFF00#32 : Word).toInt = -2 ^ p8.F ∧
    (0x80000000#32 : Word).toInt = -2 ^ 31 ∧ (0x100#32 : Word) ≠ 0#32 ∧ (0x100#32 : Word).toInt = 2 ^ p8.F := by
  decide

theorem test_witness_DivOverflowWithLargeDivisor_abs :
    (2 : Int) ^ p8.F ≤ |(0xFFFFFF00#32 : Word).toInt| := by
  rw [show (0xFFFFFF00#32 : Word).toInt = -2 ^ p8.F by decide, abs_neg]
  exact le_abs_self _

/-- The shifted numerator `-2^31` with divisor `-1`; both ends of the range of whole parts. -/
theorem test_witness_DivnIsTheNativeDatapath :
    (0xFFFFFFFF#32 : Word) ≠ 0#32 ∧ (0x800000#32 : Word) <<< p8.F = 0x80000000#32 ∧
    WholeInRange p8 (0x7FFFFF#32 : Word).toInt ∧ WholeInRange p8 (0xFF800000#32 : Word).toInt ∧
    ¬ WholeInRange p8 (0x800000#32 : Word).toInt := by decide

/-- The instance within one step and the counter-example of section 1, P10. -/
theorem test_witness_MultiplyThenDivideBound :
    exec (.mul 0x140#32 0x300#32) State.reset =
      .next { State.reset with phase := .done (0#2 ++ 0x3C0#32) } ∧
    Fits32 ((0x140#32 : Word).toInt * (0x300#32 : Word).toInt / 2 ^ State.reset.params.F) ∧
    exec (.div 0x3C0#32 0x300#32) State.reset =
      .next { State.reset with phase := .done (0#2 ++ 0x140#32) } ∧
    Fits32 (((0x3C0#32 : Word).toInt * 2 ^ State.reset.params.F).tdiv (0x300#32 : Word).toInt) ∧
    exec (.mul 0xFF#32 1#32) State.reset = .next { State.reset with phase := .done (0#2 ++ 0#32) } ∧
    Fits32 ((0xFF#32 : Word).toInt * (1#32 : Word).toInt / 2 ^ State.reset.params.F) ∧
    exec (.div 0#32 1#32) State.reset = .next { State.reset with phase := .done (0#2 ++ 0#32) } ∧
    Fits32 (((0#32 : Word).toInt * 2 ^ State.reset.params.F).tdiv (1#32 : Word).toInt) :=
  ⟨rfl, by decide, rfl, by decide, rfl, by decide, rfl, by decide⟩

theorem test_witness_MultiplyThenDivideBound_abs :
    (2 : Int) ^ State.reset.params.F ≤ |(0x300#32 : Word).toInt| :=
  le_trans (by decide : (2 : Int) ^ State.reset.params.F ≤ (0x300#32 : Word).toInt) (le_abs_self _)

/-- Both sides of the condition at `F = 8`, a whole value, and `F = 31`. -/
theorem test_witness_CeilRoundsUp :
    (0x7FFFFF00#32 : Word).toInt ≤ 2 ^ 31 - 2 ^ p8.F ∧ (0x7FFFFF01#32 : Word).toInt > 2 ^ 31 - 2 ^ p8.F ∧
    (0x7FFFFF00#32 : Word).toInt % 2 ^ p8.F = 0 ∧ 7 < p8.F ∧
    (0#32 : Word).toInt ≤ 2 ^ 31 - 2 ^ p31.F ∧ (1#32 : Word).toInt > 2 ^ 31 - 2 ^ p31.F := by decide

theorem test_witness_CeilIsFloorPlusOne :
    (0x300#32 : Word) &&& maskPattern p8 = 0#32 ∧ (0x180#32 : Word) &&& maskPattern p8 ≠ 0#32 ∧
    (0x180#32 : Word).toInt ≤ 2 ^ 31 - 2 ^ p8.F := by decide

/-- Both sides of the condition at `F = 8` and at `F = 31`. -/
theorem test_witness_ResolverRoundsToNearest :
    (0x7FFFFF7F#32 : Word).toInt ≤ 2 ^ 31 - 1 - 2 ^ (p8.F - 1) ∧
    (0x7FFFFF80#32 : Word).toInt > 2 ^ 31 - 1 - 2 ^ (p8.F - 1) ∧
    (0x3FFFFFFF#32 : Word).toInt ≤ 2 ^ 31 - 1 - 2 ^ (p31.F - 1) ∧
    (0x40000000#32 : Word).toInt > 2 ^ 31 - 1 - 2 ^ (p31.F - 1) := by decide

/-- The largest value within the condition has its top fraction bit clear; 1.5 has it set. -/
theorem test_witness_ResolvesDifferByTopFractionBit :
    (0x7FFFFF7F#32 : Word).toInt ≤ 2 ^ 31 - 1 - 2 ^ (p8.F - 1) ∧
    (0x7FFFFF7F#32 : Word).getLsbD (p8.F - 1) = false ∧
    (0x180#32 : Word).toInt ≤ 2 ^ 31 - 1 - 2 ^ (p8.F - 1) ∧
    (0x180#32 : Word).getLsbD (p8.F - 1) = true := by decide

/-- Both ends of the range of whole parts, at `F = 8` and at `F = 31`. -/
theorem test_witness_ResolveUndoesMake :
    WholeInRange p8 (0x7FFFFF#32 : Word).toInt ∧ WholeInRange p8 (0xFF800000#32 : Word).toInt ∧
    WholeInRange p31 (0#32 : Word).toInt ∧ WholeInRange p31 (0xFFFFFFFF#32 : Word).toInt ∧
    ¬ WholeInRange p31 (1#32 : Word).toInt := by decide

theorem test_witness_MakerOrsTheRawFraction :
    WholeInRange p8 (0x7FFFFF#32 : Word).toInt ∧ (0xFF#32 : Word).toNat ≤ 2 ^ p8.F - 1 := by decide

theorem test_witness_MakedRescalesTheFraction :
    WholeInRange p8 (0xFF800000#32 : Word).toInt ∧ (0x3E7#32 : Word).toNat < p8.Q ∧
    WholeInRange p8q65536 (1#32 : Word).toInt ∧ (0xFFFF#32 : Word).toNat < p8q65536.Q := by decide

theorem test_witness_MakerIsMakedAtPowerOfTwo :
    p8q256.Q = 2 ^ p8q256.F ∧ (0xFF#32 : Word).toNat < 2 ^ p8q256.F := by decide

end Sys2Proof.Tests
end

section
/-!
PROOFS. The statements of 00_scope.md: the configuration check and its parameters (R5, R6, R8), the derived
constants (R7), and what a response depends on (R14).
-/

namespace Sys2Proof.Machine

/-! ### The configuration check -/

/-- The configuration check of R8 says that both parameters are in range. -/
theorem paramsOk_iff (F Q : Nat) : paramsOk F Q = true ↔ 1 ≤ F ∧ F ≤ 31 ∧ 1 ≤ Q ∧ Q ≤ 65536 := by
  simp only [paramsOk, Bool.and_eq_true, decide_eq_true_eq, and_assoc]

theorem build_of_paramsOk {F Q : Nat} (h : paramsOk F Q = true) :
    Params.build F Q = some { F := F, Q := Q, ok := h } :=
  dif_pos h

theorem build_of_not_paramsOk {F Q : Nat} (h : ¬ paramsOk F Q = true) : Params.build F Q = none :=
  dif_neg h

/-- Settles O29: the check that `Params.build` runs is the two ranges. -/
theorem buildFailsOutOfRange : Obligations.BuildFailsOutOfRange := by
  intro F Q
  rw [← paramsOk_iff]
  exact ⟨fun h => ⟨_, build_of_paramsOk h, rfl, rfl⟩, build_of_not_paramsOk⟩

/-! ### The parameters along a step -/

/-- A step answers a next state with the same parameters, whichever transition it takes. -/
theorem exists_step_eq_next_params (s : State) : ∃ t, step s = .next t ∧ t.params = s.params := by
  obtain ⟨-, reset⟩ | ⟨-, ⟨-, -, ⟨-, answerAtOnce⟩ | ⟨n, -, take⟩⟩ | ⟨-, -, noOffer⟩ | ⟨c, -, compute⟩ |
    ⟨c, n, -, wait⟩ | ⟨r, -, -, give⟩ | ⟨r, -, -, hold⟩⟩ := step_cases s
  · exact ⟨_, reset, rfl⟩
  · exact ⟨_, answerAtOnce, rfl⟩
  · exact ⟨_, take, rfl⟩
  · exact ⟨_, noOffer, rfl⟩
  · exact ⟨_, compute, rfl⟩
  · exact ⟨_, wait, rfl⟩
  · exact ⟨_, give, rfl⟩
  · exact ⟨_, hold, rfl⟩

/-- Settles O25: the one next state of a step has the parameters of the state before it. -/
theorem noStepChangesTheParameters : Obligations.NoStepChangesTheParameters := by
  intro s t ht
  obtain ⟨u, hu, hparams⟩ := exists_step_eq_next_params s
  cases ht.symm.trans hu
  exact hparams

/-! ### The response -/

/-- Settles O12: the one response word is `answer p c`, which reads nothing else of the state. -/
theorem responseDependsOnCommandAndParametersOnly :
    Obligations.ResponseDependsOnCommandAndParametersOnly := by
  intro p c
  refine ⟨answer p c, fun s hp => ?_⟩
  rw [exec_eq_next, hp, answer]

/-! ### The derived constants -/

/-- A bit of a word is that bit of its unsigned reading. -/
theorem getLsbD_eq_testBit_u32 (x : Word) (i : Nat) : x.getLsbD i = (u32 x).testBit i := rfl

/-- The bits of `ONE`, read off its value `2^F`. -/
theorem onePattern_getLsbD (p : Params) (i : Nat) : (onePattern p).getLsbD i = true ↔ i = p.F := by
  rw [getLsbD_eq_testBit_u32, u32_onePattern, Nat.testBit_two_pow, decide_eq_true_eq, eq_comm]

/-- The bits of `HALF`, read off its value `2^(F-1)`. -/
theorem halfPattern_getLsbD (p : Params) (i : Nat) : (halfPattern p).getLsbD i = true ↔ i = p.F - 1 := by
  rw [getLsbD_eq_testBit_u32, u32_halfPattern, Nat.testBit_two_pow, decide_eq_true_eq, eq_comm]

/-- The bits of `MASK`, read off its value `2^F - 1`. -/
theorem maskPattern_getLsbD (p : Params) (i : Nat) : (maskPattern p).getLsbD i = true ↔ i < p.F := by
  rw [getLsbD_eq_testBit_u32, u32_maskPattern, Nat.testBit_two_pow_sub_one, decide_eq_true_eq]

/-- The complement of `MASK` has the bits of a word from `F` up. -/
theorem not_maskPattern_getLsbD (p : Params) {i : Nat} (hi : i < 32) :
    (~~~ maskPattern p).getLsbD i = true ↔ p.F ≤ i := by
  rw [BitVec.getLsbD_not, decide_eq_true hi, Bool.true_and, Bool.not_eq_true', Bool.eq_false_iff, ne_eq,
    maskPattern_getLsbD, not_lt]

/-- Settles O30: bit by bit from the values of the constants, and by evaluation at the two printed `F`. -/
theorem derivedConstants : Obligations.DerivedConstants := by
  refine ⟨fun p i hi => ⟨onePattern_getLsbD p i, halfPattern_getLsbD p i, maskPattern_getLsbD p i,
    not_maskPattern_getLsbD p hi⟩, fun p hF => ?_, fun p hF => ?_⟩
  · rw [onePattern, hF]
    decide
  · rw [onePattern, halfPattern, maskPattern, hF]
    decide

end Sys2Proof.Machine
end

section
/-!
PROOFS. The statements of 10_state.md: the output pins (R29), Accept (R26), Compute (R27), Deliver (R28), the
state after reset (R30), and the pairing of responses with commands along every step and run (R32).
-/

namespace Sys2Proof.Machine

/-! ### One edge: the step of each transition -/

/-- Compute in BUSY runs the decoded command on the state moved on to the next edge. -/
theorem step_of_busy_zero {s : State} {c : CmdWord} (hr : (pinsOf s).rst = false) (hp : s.phase = .busy c 0) :
    step s = exec (decode c) (nextEdge s) := by
  simp [step, edgeAction_busy hr hp, busyAction]

section Offer

variable {s : State} (hr : (pinsOf s).rst = false) (hp : s.phase = .idle) (hv : (pinsOf s).reqValid = true)

include hr hp hv

/-- Accept where the free latency is zero: the command word runs at the accepting edge. -/
theorem step_of_offer_latency_zero (hl : Config.latency s.params s.edge (pinsOf s).reqCmd = 0) :
    step s = exec (decode (pinsOf s).reqCmd) (accept (pinsOf s).reqCmd 0 (nextEdge s)) := by
  simp [step, edgeAction_idle hr hp, hv, hl, acceptAction]

/-- Accept where the free latency is not zero: the command word is stored with one edge less to wait. -/
theorem step_of_offer_latency_succ {n : Nat}
    (hl : Config.latency s.params s.edge (pinsOf s).reqCmd = n + 1) :
    step s = .next (accept (pinsOf s).reqCmd n (nextEdge s)) :=
  step_of_move (by simp [edgeAction_idle hr hp, hv, hl, acceptAction])

end Offer

theorem step_of_done_ready {s : State} {r : RspWord} (hr : (pinsOf s).rst = false) (hp : s.phase = .done r)
    (hd : (pinsOf s).rspReady = true) : step s = .next (deliver r (nextEdge s)) :=
  step_of_move (by simp [edgeAction_done hr hp, hd])

theorem step_of_done_not_ready {s : State} {r : RspWord} (hr : (pinsOf s).rst = false)
    (hp : s.phase = .done r) (hd : (pinsOf s).rspReady = false) : step s = .next (nextEdge s) :=
  step_of_move (by simp [edgeAction_done hr hp, hd])

/-! ### The pairing of responses with commands -/

theorem owed_of_idle {s : State} (hp : s.phase = .idle) : owed s = [] := by
  simp [owed, hp]

theorem owed_of_busy {s : State} {c : CmdWord} {n : Nat} (hp : s.phase = .busy c n) :
    owed s = [answer s.params c] := by
  simp [owed, hp]

theorem owed_of_done {s : State} {r : RspWord} (hp : s.phase = .done r) : owed s = [r] := by
  simp [owed, hp]

/-- The unit holds at most one operation. -/
theorem owed_length_le_one (s : State) : (owed s).length ≤ 1 := by
  rcases hp : s.phase with _ | ⟨c, n⟩ | r
  · simp [owed_of_idle hp]
  · simp [owed_of_busy hp]
  · simp [owed_of_done hp]

/-- Moving on to the next edge touches neither the phase nor the record. -/
theorem Paired.nextEdge {s : State} (h : Paired s) : Paired (nextEdge s) := h

/-- A reset drops the operation in flight together with the record. -/
theorem paired_takeReset (s : State) : Paired (takeReset s) := rfl

/-- Accept in IDLE adds one word to the record and owes its answer. -/
theorem Paired.accept {s : State} (h : Paired s) (hp : s.phase = .idle) (c : CmdWord) (n : Nat) :
    Paired (accept c n s) := by
  have hgot : s.got = s.sent.map (answer s.params) := by
    rwa [Paired, owed_of_idle hp, List.append_nil] at h
  simp [Paired, owed_of_busy (accept_phase c n s), hgot]

/-- Waiting owes the same answer. -/
theorem Paired.waitIn {s : State} {c : CmdWord} {m : Nat} (h : Paired s) (hp : s.phase = .busy c m) (n : Nat) :
    Paired (waitIn c n s) := by
  rw [Paired, owed_of_busy hp] at h
  rwa [Paired, owed_of_busy (waitIn_phase c n s)]

/-- Compute puts the owed answer into the latch. -/
theorem Paired.respond {s : State} {c : CmdWord} {n : Nat} (h : Paired s) (hp : s.phase = .busy c n) :
    Paired (respond (fxExec s.params (decode c)) s) := by
  rw [Paired, owed_of_busy hp] at h
  rwa [Paired, owed_of_done (respond_phase _ s)]

/-- Deliver moves the owed response to the received ones. -/
theorem Paired.deliver {s : State} {r : RspWord} (h : Paired s) (hp : s.phase = .done r) :
    Paired (deliver r s) := by
  rw [Paired, owed_of_done hp] at h
  rwa [Paired, owed_of_idle (deliver_phase r s), List.append_nil]

/-- From a state that is paired a step answers a paired state, whichever transition it takes. -/
theorem exists_step_eq_next_paired {s : State} (h : Paired s) : ∃ t, step s = .next t ∧ Paired t := by
  obtain ⟨-, reset⟩ | ⟨-, ⟨idle, -, ⟨-, answerAtOnce⟩ | ⟨n, -, take⟩⟩ | ⟨-, -, noOffer⟩ | ⟨c, busy, compute⟩ |
    ⟨c, n, busy, wait⟩ | ⟨r, done, -, give⟩ | ⟨r, -, -, hold⟩⟩ := step_cases s
  · exact ⟨_, reset, paired_takeReset _⟩
  · exact ⟨_, answerAtOnce, (h.nextEdge.accept idle _ 0).respond (accept_phase _ _ _)⟩
  · exact ⟨_, take, h.nextEdge.accept idle _ n⟩
  · exact ⟨_, noOffer, h.nextEdge⟩
  · exact ⟨_, compute, h.nextEdge.respond busy⟩
  · exact ⟨_, wait, h.nextEdge.waitIn busy n⟩
  · exact ⟨_, give, h.nextEdge.deliver done⟩
  · exact ⟨_, hold, h.nextEdge⟩

/-- Settles O22: the one next state of a step from a paired state is paired. -/
theorem everyStepKeepsResponsesPaired : Obligations.EveryStepKeepsResponsesPaired := by
  intro s t h ht
  obtain ⟨u, hu, hpaired⟩ := exists_step_eq_next_paired h
  cases ht.symm.trans hu
  exact hpaired

theorem paired_resetWith (p : Params) (d : List HostPins) : Paired (State.resetWith p d) := rfl

/-- With no latch and nothing received there is no response that could be illegal. -/
theorem responsesLegal_resetWith (p : Params) (d : List HostPins) : ResponsesLegal (State.resetWith p d) := by
  refine ⟨fun r hr => ?_, fun r hr => ?_⟩
  · rw [resetWith_phase] at hr
    cases hr
  · rw [resetWith_got] at hr
    cases hr

/-- Settles O24: the reset state of the default build is one of those of every build. -/
theorem resetMeetsTheInvariants : Obligations.ResetMeetsTheInvariants := fun p d =>
  ⟨⟨paired_resetWith p d, responsesLegal_resetWith p d⟩, paired_resetWith _ _, responsesLegal_resetWith _ _⟩

/-- Every run from reset of a unit built with `p` ends in a paired state of a unit built with `p`. -/
theorem run_resetWith_paired {p : Params} {d : List HostPins} {k : Nat} {t : State}
    (h : Host.Core.run core k (State.resetWith p d) = .next t) : Paired t ∧ t.params = p :=
  run_keeps (P := fun s => Paired s ∧ s.params = p)
    (fun s t ⟨hpaired, hparams⟩ ht => ⟨everyStepKeepsResponsesPaired s t hpaired ht,
      (noStepChangesTheParameters s t ht).trans hparams⟩)
    ⟨paired_resetWith p d, resetWith_params p d⟩ h

/-- Settles O26: what was received is the answers to all accepted words but for the one that may be owed. -/
theorem everyRunAnswersInOrder : Obligations.EveryRunAnswersInOrder := by
  intro p d k t h
  obtain ⟨hpaired, rfl⟩ := run_resetWith_paired h
  rw [Paired] at hpaired
  have hlength : t.got.length + (owed t).length = t.sent.length := by
    simpa using congrArg List.length hpaired
  have howed := owed_length_le_one t
  refine ⟨?_, by omega, by omega, fun hidle => ?_⟩
  · rw [← hpaired, List.take_left]
  · rwa [owed_of_idle hidle, List.append_nil] at hpaired

/-! ### Accept -/

/-- Outside IDLE no transition reads `req_valid` or `req_cmd` (R26). -/
theorem edgeAction_ignores_offer {s : State} (hp : s.phase ≠ .idle) (p : HostPins) (ps : List HostPins)
    (v : Bool) (c : CmdWord) :
    edgeAction { s with drive := { p with reqValid := v, reqCmd := c } :: ps } =
      edgeAction { s with drive := p :: ps } := by
  rcases hphase : s.phase with _ | ⟨c, n⟩ | r
  · exact absurd hphase hp
  · rfl
  · rfl

/-- Without an offer, or with a reset, no transition reads `req_cmd` (R26, R150). -/
theorem edgeAction_ignores_reqCmd {p : HostPins} (hp : p.reqValid = false ∨ p.rst = true) (s : State)
    (ps : List HostPins) (c : CmdWord) :
    edgeAction { s with drive := { p with reqCmd := c } :: ps } = edgeAction { s with drive := p :: ps } := by
  obtain ⟨rst, reqValid, reqCmd, rspReady⟩ := p
  obtain rfl | rfl := hp
  · rcases s.phase with _ | ⟨c, n⟩ | r <;> rfl
  · rfl

/-- The state after an edge is a function of the transition taken there. -/
theorem step_congr {s t : State} (h : edgeAction s = edgeAction t) : step s = step t := by
  rw [step, step, h]

/-- Settles O15: Accept by the two cases of the latency, the other edges because the transition is the same. -/
theorem acceptTakesTheOfferedCommand : Obligations.AcceptTakesTheOfferedCommand := by
  refine ⟨fun s p ps hdrive hp hr hv => ?_, fun s p ps v c hp => step_congr (edgeAction_ignores_offer hp p ps v c),
    fun s p ps c hp => step_congr (edgeAction_ignores_reqCmd hp s ps c)⟩
  obtain rfl := pinsOf_of_drive hdrive
  rcases hl : Config.latency s.params s.edge (pinsOf s).reqCmd with _ | n
  · have hstep := step_of_offer_latency_zero hr hp hv hl
    rw [exec_eq_next] at hstep
    exact ⟨_, hstep, .inr (exec_eq_next _ _), rfl, by simp [hdrive], rfl, rfl⟩
  · exact ⟨_, step_of_offer_latency_succ hr hp hv hl, .inl ⟨n, rfl⟩, rfl, by simp [hdrive], rfl, rfl⟩

/-- Settles O16: Compute in BUSY, and Accept by the two cases of the latency. -/
theorem stepRunsTheDecodedCommand : Obligations.StepRunsTheDecodedCommand := by
  refine ⟨fun s c hp hr => step_of_busy_zero hr hp, fun s p ps hdrive hp hr hv => ?_⟩
  obtain rfl := pinsOf_of_drive hdrive
  obtain rfl : s.drive.tail = ps := by simp [hdrive]
  rcases hl : Config.latency s.params s.edge (pinsOf s).reqCmd with _ | n
  · exact step_of_offer_latency_zero hr hp hv hl
  · exact step_of_offer_latency_succ hr hp hv hl

/-! ### Deliver, and edges at which nothing happens -/

/-- What holds of the coming pins of the drive and of a quiet host holds of the pins at the coming edge. -/
theorem pinsOf_of_forall_take {P : HostPins → Prop} (quiet : P quietPins) {k : Nat} {s : State}
    (h : ∀ p ∈ s.drive.take (k + 1), P p) : P (pinsOf s) := by
  rcases hdrive : s.drive with _ | ⟨p, ps⟩
  · rwa [pinsOf_of_drive_nil hdrive]
  · rw [pinsOf_of_drive hdrive]
    exact h p (by simp [hdrive])

/-- What holds of the next `k + 1` pins of a drive holds of the next `k` after the first edge. -/
theorem forall_take_tail {P : HostPins → Prop} {k : Nat} {d : List HostPins} (h : ∀ p ∈ d.take (k + 1), P p) :
    ∀ p ∈ d.tail.take k, P p := by
  cases d with
  | nil => simp
  | cons q qs => exact fun p hp => h p (List.mem_cons_of_mem q hp)

/-- If in the phase `ph` nothing happens at an edge whose pins satisfy `P`, nothing happens along any number
of such edges, the quiet ones after the end of the drive among them. -/
theorem run_of_stays {P : HostPins → Prop} {ph : Phase} (quiet : P quietPins)
    (stays : ∀ s : State, s.phase = ph → P (pinsOf s) → step s = .next (nextEdge s)) :
    ∀ (k : Nat) (s : State), s.phase = ph → (∀ p ∈ s.drive.take k, P p) →
      Host.Core.run core k s = .next { s with drive := s.drive.drop k, edge := s.edge + k }
  | 0, _, _, _ => rfl
  | k + 1, s, hp, hd => by
    rw [run_of_step (stays s hp (pinsOf_of_forall_take quiet hd)),
      run_of_stays quiet stays k (nextEdge s) hp (forall_take_tail hd)]
    simp [nextEdge, Nat.add_assoc, Nat.add_comm 1]

/-- Settles O18: Deliver at one edge, and holding by the induction over edges at which nothing happens. -/
theorem deliverOrHoldTheResponse : Obligations.DeliverOrHoldTheResponse := by
  refine ⟨fun s p ps r hdrive hp hr hd => ?_, fun k s r => ?_⟩
  · obtain rfl := pinsOf_of_drive hdrive
    obtain rfl : s.drive.tail = ps := by simp [hdrive]
    exact step_of_done_ready hr hp hd
  · exact run_of_stays ⟨rfl, rfl⟩ (fun s hp ⟨hr, hd⟩ => step_of_done_not_ready hr hp hd) k s

/-! ### The output pins and the state after reset -/

theorem reqReady_iff (s : State) : reqReady s = true ↔ s.phase = .idle := by
  rcases hp : s.phase with _ | ⟨c, n⟩ | r <;> simp [reqReady, hp]

theorem rspValid_iff (s : State) : rspValid s = true ↔ ∃ r, s.phase = .done r := by
  rcases hp : s.phase with _ | ⟨c, n⟩ | r <;> simp [rspValid, hp]

theorem rspData_of_done {s : State} {r : RspWord} (hp : s.phase = .done r) : rspData s = r := by
  simp [rspData, hp]

/-- Settles O14: each pin by the phase; none of their definitions reads the drive. -/
theorem outputsFollowThePhase : Obligations.OutputsFollowThePhase := fun s =>
  ⟨reqReady_iff s, rspValid_iff s, fun _ => rspData_of_done, fun _ => ⟨rfl, rfl, rfl⟩⟩

/-- Settles O28: the phase after reset is IDLE, which gives both pins; the default build is a literal. -/
theorem resetState : Obligations.ResetState :=
  ⟨fun p d => ⟨resetWith_phase p d, (reqReady_iff _).mpr (resetWith_phase p d), rfl, resetWith_params p d⟩,
    rfl, rfl, rfl⟩

end Sys2Proof.Machine
end

section
/-!
PROOFS. The statements of 30_encoding.md: the fields of the command word (R50), the operation-code map and the
round trips between words and instructions (R53, R54, R57), legal response words (R51), the unary operations
(R55), the reserved codes (R56), and the assembler with its text (R58, R59).
-/

namespace Sys2Proof

/-! ### The fields of the command word -/

/-- The three fields make up the word: no bit of it stands outside them (R50). -/
theorem cmdWord_cmdOp_cmdA_cmdB (c : CmdWord) : cmdWord (cmdOp c) (cmdA c) (cmdB c) = c := by
  have hhigh : cmdOp c ++ cmdA c = c.extractLsb' 32 36 := BitVec.extractLsb'_append_extractLsb'_eq_extractLsb' rfl
  rw [cmdWord, hhigh, cmdB]
  exact BitVec.extractLsb'_append_extractLsb'

theorem cmdOp_toNat (c : CmdWord) : (cmdOp c).toNat = c.toNat / 2 ^ 64 := by
  have h : c.toNat < 2 ^ 68 := c.isLt
  rw [cmdOp, BitVec.extractLsb'_toNat, Nat.shiftRight_eq_div_pow]
  omega

theorem cmdA_toNat (c : CmdWord) : (cmdA c).toNat = c.toNat / 2 ^ 32 % 2 ^ 32 := by
  rw [cmdA, BitVec.extractLsb'_toNat, Nat.shiftRight_eq_div_pow]

theorem cmdB_toNat (c : CmdWord) : (cmdB c).toNat = c.toNat % 2 ^ 32 := by
  rw [cmdB, BitVec.extractLsb'_toNat, Nat.shiftRight_zero]

@[simp] theorem opCodeOf_decode (c : CmdWord) : opCodeOf (decode c) = cmdOp c := opCodeOf_instrOf _ _ _

@[simp] theorem fieldA_decode (c : CmdWord) : (decode c).fieldA = cmdA c := fieldA_instrOf _ _ _

@[simp] theorem fieldB_decode (c : CmdWord) : (decode c).fieldB = cmdB c := fieldB_instrOf _ _ _

/-- The number of a command word reads back as the word. -/
theorem cmdOfNumber_toNat (c : CmdWord) : cmdOfNumber c.toNat = .ok c := by
  rw [cmdOfNumber_of_lt c.isLt, BitVec.ofNat_toNat, BitVec.setWidth_eq]

/-- In the table's numbering of bits all 68 of them are the command word. -/
theorem decodeTableWord_toNat (c : CmdWord) : decodeTableWord 68 c.toNat = some (decode c) := by
  simp [decodeTableWord, cmdOfTableWord, Nat.mod_eq_of_lt c.isLt, cmdOfNumber_toNat]

/-- Settles O1: decoding keeps the three fields, which are quotients and remainders of the word's number. -/
theorem commandWordHasThreeFields : Obligations.CommandWordHasThreeFields := by
  refine ⟨fun c => ⟨?_, ?_, ?_⟩, fun w => cmdOfNumber_too_wide, fun w hw => ?_⟩
  · rw [opCodeOf_decode, cmdOp_toNat]
  · rw [fieldA_decode, cmdA_toNat]
  · rw [fieldB_decode, cmdB_toNat]
  · exact ⟨_, cmdOfNumber_of_lt hw, by rw [BitVec.toNat_ofNat, Nat.mod_eq_of_lt hw]⟩

/-! ### Round trips -/

/-- An instruction is the row of its operation code at its fields. -/
theorem instrOf_opCodeOf (i : Instr) : instrOf (opCodeOf i) i.fieldA i.fieldB = i := by
  cases i <;> rfl

theorem decode_encode (i : Instr) : decode (encode i) = i := by
  rw [encode, decode_cmdWord, instrOf_opCodeOf]

theorem encode_decode (c : CmdWord) : encode (decode c) = c := by
  rw [encode, opCodeOf_decode, fieldA_decode, fieldB_decode, cmdWord_cmdOp_cmdA_cmdB]

/-- Settles O3: the code and the fields are read back from the word, and they determine the instruction. -/
theorem decodeOfEncode : Obligations.DecodeOfEncode := by
  intro i
  refine ⟨decode_encode i, ?_⟩
  rw [decodeTableWord_toNat, decode_encode]

/-- Settles O4: an instruction keeps the three fields of its word, and they make up the word. -/
theorem encodeOfDecode : Obligations.EncodeOfDecode := encode_decode

/-! ### The operation-code map -/

/-- A conjunction of command words is taken field by field. -/
theorem cmdWord_and_cmdWord (op op' : OpCode) (a a' b b' : Word) :
    cmdWord op a b &&& cmdWord op' a' b' = cmdWord (op &&& op') (a &&& a') (b &&& b') := by
  have hhigh : (op ++ a) &&& (op' ++ a') = (op &&& op') ++ (a &&& a') := BitVec.and_append
  rw [cmdWord, cmdWord, cmdWord, ← hhigh]
  exact BitVec.and_append

/-- The mask has all bits of the operation code and none of the fields (R53). -/
theorem tableMask_eq_cmdWord : tableMask = cmdWord (BitVec.allOnes 4) 0#32 0#32 := rfl

/-- Masking keeps the operation code and clears the fields (R53). -/
theorem and_tableMask (c : CmdWord) : c &&& tableMask = tableMatch (cmdOp c) := by
  conv_lhs => rw [← cmdWord_cmdOp_cmdA_cmdB c]
  rw [tableMask_eq_cmdWord, cmdWord_and_cmdWord, BitVec.and_allOnes, BitVec.and_zero, BitVec.and_zero, tableMatch]

/-- A word selects the row of the code `op` exactly when it decodes to that row's operation (R53). -/
theorem and_tableMask_eq_iff (c : CmdWord) (op : OpCode) :
    c &&& tableMask = tableMatch op ↔ ∃ a b, decode c = instrOf op a b := by
  rw [and_tableMask]
  constructor
  · intro h
    have hop : cmdOp c = op := by simpa [tableMatch] using congrArg cmdOp h
    exact ⟨cmdA c, cmdB c, by rw [decode, hop]⟩
  · rintro ⟨a, b, h⟩
    rw [← opCodeOf_decode, h, opCodeOf_instrOf]

/-- The unary operations are the codes 6 to 9, from the column "form" of R53. -/
theorem form_eq_fu_iff (i : Instr) : i.form = .fu ↔ 0x6 ≤ (opCodeOf i).toNat ∧ (opCodeOf i).toNat ≤ 0x9 := by
  cases i <;> simp [Instr.form, opCodeOf]

/-- The reserved operations are the codes C to F, from the column "form" of R53. -/
theorem form_eq_reserved_iff (i : Instr) : i.form = .reserved ↔ 0xC ≤ (opCodeOf i).toNat := by
  cases i <;> simp [Instr.form, opCodeOf]

/-- Settles O2: each row is `and_tableMask_eq_iff` at its code, whose match and constructor are those printed. -/
theorem matchAndMaskSelectTheRow : Obligations.MatchAndMaskSelectTheRow := fun c =>
  ⟨and_tableMask_eq_iff c 0x0#4, and_tableMask_eq_iff c 0x1#4, and_tableMask_eq_iff c 0x2#4,
    and_tableMask_eq_iff c 0x3#4, and_tableMask_eq_iff c 0x4#4, and_tableMask_eq_iff c 0x5#4,
    and_tableMask_eq_iff c 0x6#4, and_tableMask_eq_iff c 0x7#4, and_tableMask_eq_iff c 0x8#4,
    and_tableMask_eq_iff c 0x9#4, and_tableMask_eq_iff c 0xA#4, and_tableMask_eq_iff c 0xB#4,
    and_tableMask_eq_iff c 0xC#4, and_tableMask_eq_iff c 0xD#4, and_tableMask_eq_iff c 0xE#4,
    and_tableMask_eq_iff c 0xF#4, form_eq_fu_iff _, form_eq_reserved_iff _⟩

end Sys2Proof

namespace Sys2Proof.Machine

/-! ### The responses an operation can give -/

/-- What a response can be: a result for a code that is not reserved, DivideByZero for such a code too (the
dividers), and IllegalOperation for the reserved codes (R130, R132, R133). -/
theorem fxExec_cases (p : Params) (i : Instr) :
    (i.form ≠ .reserved ∧ ∃ r, fxExec p i = answerOk r) ∨
    (i.form ≠ .reserved ∧ fxExec p i = raiseExc .divideByZero) ∨
    (i.form = .reserved ∧ fxExec p i = raiseExc .illegalOperation) := by
  cases i with
  | div a b =>
    rcases eq_or_ne b 0#32 with rfl | hb
    · exact .inr (.inl ⟨by simp [Instr.form], fxDiv_zero p a⟩)
    · exact .inl ⟨by simp [Instr.form], _, fxDiv_of_ne_zero p a hb⟩
  | divn a b =>
    rcases eq_or_ne b 0#32 with rfl | hb
    · exact .inr (.inl ⟨by simp [Instr.form], fxDivn_zero p a⟩)
    · exact .inl ⟨by simp [Instr.form], _, fxDivn_of_ne_zero p a hb⟩
  | reservedC | reservedD | reservedE | reservedF => exact .inr (.inr ⟨rfl, rfl⟩)
  | _ => exact .inl ⟨by simp [Instr.form], _, rfl⟩

/-- An operation that does not raise answers with `STAT = 0` and its result. -/
theorem exec_of_fxExec_eq_answerOk {i : Instr} {s : State} {r : Word} (h : fxExec s.params i = answerOk r) :
    exec i s = .next { s with phase := .done (0#2 ++ r) } := by
  rw [exec_eq_next, h, rspWord_answerOk]

/-! ### Legal responses -/

/-- No status has the code 3, so a response is legal when it has a zero result unless its status is 0 (R131). -/
theorem legalRsp_rspWord_iff (x : Response) : LegalRsp (rspWord x) ↔ (x.stat ≠ .ok → x.r = 0#32) := by
  rw [LegalRsp, rspStat_rspWord, rspR_rspWord]
  cases x.stat <;> simp [statusCode]

theorem legalRsp_rspWord_fxExec (p : Params) (i : Instr) : LegalRsp (rspWord (fxExec p i)) := by
  rw [legalRsp_rspWord_iff]
  intro hstat
  obtain ⟨-, r, h⟩ | ⟨-, h⟩ | ⟨-, h⟩ := fxExec_cases p i
  · exact absurd (congrArg Response.stat h) hstat
  · exact congrArg Response.r h
  · exact congrArg Response.r h

/-- Moving on to the next edge touches neither the latch nor the responses received. -/
theorem ResponsesLegal.nextEdge {s : State} (h : ResponsesLegal s) : ResponsesLegal (nextEdge s) := h

/-- After a reset there is no response, in the latch or received. -/
theorem responsesLegal_takeReset (s : State) : ResponsesLegal (takeReset s) := by
  simp [ResponsesLegal]

theorem ResponsesLegal.accept {s : State} (h : ResponsesLegal s) (c : CmdWord) (n : Nat) :
    ResponsesLegal (accept c n s) :=
  ⟨by simp, h.2⟩

theorem ResponsesLegal.waitIn {s : State} (h : ResponsesLegal s) (c : CmdWord) (n : Nat) :
    ResponsesLegal (waitIn c n s) :=
  ⟨by simp, h.2⟩

/-- Compute puts a legal response into the latch. -/
theorem ResponsesLegal.respond {s : State} (h : ResponsesLegal s) (p : Params) (i : Instr) :
    ResponsesLegal (respond (fxExec p i) s) := by
  refine ⟨fun r hr => ?_, h.2⟩
  rw [respond_phase] at hr
  cases hr
  exact legalRsp_rspWord_fxExec p i

/-- Deliver moves the legal response of the latch to the received ones. -/
theorem ResponsesLegal.deliver {s : State} {r : RspWord} (h : ResponsesLegal s) (hp : s.phase = .done r) :
    ResponsesLegal (deliver r s) := by
  obtain ⟨latch, received⟩ := h
  refine ⟨by simp, fun w hw => ?_⟩
  obtain hw | hw := List.mem_append.mp hw
  · exact received w hw
  · rw [List.mem_singleton.mp hw]
    exact latch r hp

/-- From a state whose responses are legal a step answers such a state, whichever transition it takes. -/
theorem exists_step_eq_next_responsesLegal {s : State} (h : ResponsesLegal s) :
    ∃ t, step s = .next t ∧ ResponsesLegal t := by
  obtain ⟨-, reset⟩ | ⟨-, ⟨-, -, ⟨-, answerAtOnce⟩ | ⟨n, -, take⟩⟩ | ⟨-, -, noOffer⟩ | ⟨c, -, compute⟩ |
    ⟨c, n, -, wait⟩ | ⟨r, done, -, give⟩ | ⟨r, -, -, hold⟩⟩ := step_cases s
  · exact ⟨_, reset, responsesLegal_takeReset _⟩
  · exact ⟨_, answerAtOnce, (h.nextEdge.accept _ 0).respond _ _⟩
  · exact ⟨_, take, h.nextEdge.accept _ n⟩
  · exact ⟨_, noOffer, h.nextEdge⟩
  · exact ⟨_, compute, h.nextEdge.respond _ _⟩
  · exact ⟨_, wait, h.nextEdge.waitIn c n⟩
  · exact ⟨_, give, h.nextEdge.deliver done⟩
  · exact ⟨_, hold, h.nextEdge⟩

/-- Settles O23: the one next state of a step from a state with legal responses has legal responses. -/
theorem everyStepKeepsResponsesLegal : Obligations.EveryStepKeepsResponsesLegal := by
  intro s t h ht
  obtain ⟨u, hu, hlegal⟩ := exists_step_eq_next_responsesLegal h
  cases ht.symm.trans hu
  exact hlegal

/-! ### The reserved codes -/

/-- The codes of `STAT` are distinct (R130). -/
theorem statusCode_injective : Function.Injective statusCode
  | .ok, .ok, _ => rfl
  | .divByZero, .divByZero, _ => rfl
  | .illegalOp, .illegalOp, _ => rfl

/-- A response word determines the response. -/
theorem rspWord_injective : Function.Injective rspWord := by
  rintro ⟨st, r⟩ ⟨st', r'⟩ h
  obtain rfl : st = st' := statusCode_injective (by simpa using congrArg rspStat h)
  obtain rfl : r = r' := by simpa using congrArg rspR h
  rfl

/-- The response latch after Compute shows what the operation answered. -/
theorem exec_eq_next_rspWord_iff (i : Instr) (s : State) (x : Response) :
    exec i s = .next { s with phase := .done (rspWord x) } ↔ fxExec s.params i = x := by
  rw [exec_eq_next]
  constructor
  · intro h
    injection h with h
    injection congrArg State.phase h with h
    exact rspWord_injective h
  · rintro rfl
    rfl

/-- A reserved code raises IllegalOperation, and no other code does (R56, R133). -/
theorem fxExec_eq_raise_illegalOperation_iff (p : Params) (i : Instr) :
    fxExec p i = raiseExc .illegalOperation ↔ i.form = .reserved := by
  obtain ⟨hform, r, h⟩ | ⟨hform, h⟩ | ⟨hform, h⟩ := fxExec_cases p i
  · simp [h, hform, answerOk, raiseExc, excStatus]
  · simp [h, hform, raiseExc, excStatus]
  · simp [h, hform]

theorem exec_eq_illegalOperation_iff (i : Instr) (s : State) :
    exec i s = .next { s with phase := .done (2#2 ++ 0#32) } ↔ i.form = .reserved :=
  (exec_eq_next_rspWord_iff i s (raiseExc .illegalOperation)).trans (fxExec_eq_raise_illegalOperation_iff _ i)

/-- The command words with a reserved code are the numbers from `0xC * 2^64` up. -/
theorem form_decode_eq_reserved_iff (c : CmdWord) : (decode c).form = .reserved ↔ 0xC * 2 ^ 64 ≤ c.toNat := by
  rw [form_eq_reserved_iff, opCodeOf_decode, cmdOp_toNat, Nat.le_div_iff_mul_le (by norm_num)]

/-- Settles O11: the answer by the form of the code, the acceptance by that of any command (O15). -/
theorem reservedCodesAnswerIllegalOperation : Obligations.ReservedCodesAnswerIllegalOperation := by
  have answers {i : Instr} (h : i.form = .reserved) (s : State) := (exec_eq_illegalOperation_iff i s).mpr h
  refine ⟨fun a b s => ⟨answers rfl s, answers rfl s, answers rfl s, answers rfl s⟩, fun c s => ?_,
    fun s p ps hdrive hp hr hv hc => ?_⟩
  · rw [exec_eq_illegalOperation_iff, form_decode_eq_reserved_iff]
  · obtain ⟨t, hstep, hbusy | hexec, -⟩ := acceptTakesTheOfferedCommand.1 s p ps hdrive hp hr hv
    · exact ⟨t, hstep, .inl hbusy⟩
    · rw [answers ((form_decode_eq_reserved_iff _).mpr hc)] at hexec
      injection hexec with hexec
      exact ⟨t, hstep, .inr (congrArg State.phase hexec).symm⟩

/-! ### The unary operations -/

/-- Settles O6: the rules of the four operations do not take `B`, and end with a result. -/
theorem unaryOperationsIgnoreB : Obligations.UnaryOperationsIgnoreB := fun _ _ _ _ =>
  ⟨⟨_, exec_of_fxExec_eq_answerOk rfl, exec_of_fxExec_eq_answerOk rfl⟩,
    ⟨_, exec_of_fxExec_eq_answerOk rfl, exec_of_fxExec_eq_answerOk rfl⟩,
    ⟨_, exec_of_fxExec_eq_answerOk rfl, exec_of_fxExec_eq_answerOk rfl⟩,
    ⟨_, exec_of_fxExec_eq_answerOk rfl, exec_of_fxExec_eq_answerOk rfl⟩, rfl, rfl, rfl, rfl⟩

/-! ### The assembler -/

/-- A line stands for a command when its operands have words and its mnemonic takes them (R58). -/
theorem assembleLine_eq_some_iff (env : AsmEnv) (l : AsmLine) (i : Instr) :
    assembleLine env l = some i ↔
      ∃ ws, operandWords env l.operands = some ws ∧ commandOf l.mnemonic ws = some i := by
  rcases hws : operandWords env l.operands with _ | ws <;> simp [assembleLine, hws]

theorem fxMaker_zero (p : Params) (a : Word) : fxMaker p a 0#32 = answerOk (a <<< p.F) := by
  rw [fxMaker, shl32_eq_shiftLeft, BitVec.or_zero]

theorem fracBits_zero (p : Params) : fracBits p 0#32 = 0 := by
  simp [fracBits_eq]

theorem fxMaked_zero (p : Params) (a : Word) : fxMaked p a 0#32 = answerOk (a <<< p.F) := by
  rw [fxMaked, fracBits_zero, shl32_eq_shiftLeft, wrap32, BitVec.ofInt_ofNat, BitVec.or_zero]

theorem operandWords_singleton {env : AsmEnv} {o : AsmOperand} {w : Word} (h : operandWord env o = some w) :
    operandWords env [o] = some [w] := by
  simp [operandWords, h]

/-- Settles O7: the line has one word, and a zero fraction sets no bit in either constructor. -/
theorem fromIntIsMakerZero : Obligations.FromIntIsMakerZero := by
  intro env n o w s ho
  exact ⟨(assembleLine_eq_some_iff _ _ _).mpr ⟨[w], operandWords_singleton ho, rfl⟩,
    exec_of_fxExec_eq_answerOk (fxMaker_zero _ w), exec_of_fxExec_eq_answerOk (fxMaked_zero _ w)⟩

/-- No mnemonic gives a reserved code, and those of form FU give `B = 0` (R58). -/
theorem assemblerWrites_of_commandOf {m : AsmMnemonic} {ws : List Word} {i : Instr}
    (h : commandOf m ws = some i) : i.assemblerWrites = true := by
  unfold commandOf at h
  split at h <;> cases h <;> rfl

/-- Settles O8: a line stands for the command of its mnemonic. -/
theorem assemblerWritesOnlyItsForms : Obligations.AssemblerWritesOnlyItsForms := by
  intro env l i h
  obtain ⟨ws, -, hcommand⟩ := (assembleLine_eq_some_iff env l i).mp h
  exact assemblerWrites_of_commandOf hcommand

/-! ### Hexadecimal text -/

theorem digitValue_hexDigit : ∀ d < 16, digitValue (hexDigit d) = some d := by decide

theorem hexDigits_length (k n : Nat) : (hexDigits k n).length = k := by
  induction k with
  | zero => rfl
  | succ k ih => rw [hexDigits, List.length_cons, ih]

/-- Reading `k` digits of `n` after those of `m` appends the low `k` digits of `n` to `m`. -/
theorem readDigits_hexDigits (k m n : Nat) : readDigits 16 m (hexDigits k n) = some (m * 16 ^ k + n % 16 ^ k) := by
  induction k generalizing m with
  | zero => simp [hexDigits, readDigits, Nat.mod_one]
  | succ k ih =>
    have hd : n / 16 ^ k % 16 < 16 := Nat.mod_lt _ (by norm_num)
    have hmod : n % 16 ^ (k + 1) = n % 16 ^ k + 16 ^ k * (n / 16 ^ k % 16) := by
      rw [pow_succ, Nat.mod_mul]
    rw [hexDigits, readDigits, digitValue_hexDigit _ hd]
    simp only [hd, if_true, ih, hmod]
    congr 1
    ring

/-- A number of at most `k` digits reads back as itself. -/
theorem readDigits_hexDigits_of_lt {k n : Nat} (h : n < 16 ^ k) : readDigits 16 0 (hexDigits k n) = some n := by
  rw [readDigits_hexDigits, Nat.mod_eq_of_lt h, Nat.zero_mul, Nat.zero_add]

/-- A word of 8 digits is read as the operand of its number. -/
theorem readOperand_hexDigits (w : Word) :
    readOperand ('0' :: 'x' :: hexDigits 8 w.toNat) = some (.hexword w.toNat) := by
  have hw : w.toNat < 16 ^ 8 := w.isLt
  simp [readOperand, hexDigits_length, readDigits_hexDigits_of_lt hw]

/-- The operand of a word's number stands for the word. -/
theorem operandWord_hexword (w : Word) (env : AsmEnv) : operandWord env (.hexword w.toNat) = some w := by
  rw [operandWord, if_pos w.isLt, BitVec.ofNat_toNat, BitVec.setWidth_eq]

/-- Settles O9: 17 digits hold 68 bits and 8 digits hold 32, so that reading gives the number back. -/
theorem hexadecimalTextReadsBack : Obligations.HexadecimalTextReadsBack := by
  refine ⟨fun c => ⟨_, rfl, hexDigits_length 17 _, ?_⟩, fun w env => ?_⟩
  · have hc : c.toNat < 16 ^ 17 := c.isLt
    exact readDigits_hexDigits_of_lt hc
  · rw [readOperand_hexDigits]
    exact operandWord_hexword w env

end Sys2Proof.Machine
end

section
/-!
PROOFS. The statements of 40_make.md: the constructor MAKER (R70), the rescaled fraction of MAKED (R72), and
the two relations between the constructors (R73, R74).
-/

namespace Sys2Proof.Machine

/-! ### The shifted whole part with a fraction under it -/

/-- MAKER's response with the shift of R12 as the shift of words. -/
theorem fxMaker_eq (p : Params) (a b : Word) : fxMaker p a b = answerOk (a <<< p.F ||| b) := by
  rw [fxMaker, shl32_eq_shiftLeft]

theorem wrap32_add (m n : Int) : wrap32 (m + n) = wrap32 m + wrap32 n := BitVec.ofInt_add m n

theorem wrap32_mul (m n : Int) : wrap32 (m * n) = wrap32 m * wrap32 n := BitVec.ofInt_mul m n

/-- The shift loses the bits past bit 31, so the signed reading gives the word as well as the unsigned one. -/
theorem shiftLeft_eq_wrap32 (a : Word) (k : Nat) : a <<< k = wrap32 (s32 a * 2 ^ k) := by
  rw [← shl32_eq_shiftLeft, shl32, wrap32_mul, wrap32_u32, wrap32_mul, wrap32_s32]

/-- A shifted word has zeros where a fraction below `2^k` has its bits. -/
theorem shiftLeft_and_eq_zero {b : Word} {k : Nat} (hb : u32 b < 2 ^ k) (a : Word) : a <<< k &&& b = 0#32 := by
  apply BitVec.eq_of_getLsbD_eq
  intro i hi
  rw [BitVec.getLsbD_and, BitVec.getLsbD_shiftLeft, BitVec.getLsbD_zero]
  by_cases hik : i < k
  · simp [hik]
  · have hbit : (u32 b).testBit i = false :=
      Nat.testBit_lt_two_pow (hb.trans_le (Nat.pow_le_pow_right (by norm_num) (not_lt.mp hik)))
    rw [getLsbD_eq_testBit_u32 b, hbit, Bool.and_false]

/-- Within its low `k` bits a fraction is added by the OR (R70). -/
theorem shiftLeft_or_eq_wrap32 {b : Word} {k : Nat} (hb : u32 b < 2 ^ k) (a : Word) :
    a <<< k ||| b = wrap32 (s32 a * 2 ^ k + u32 b) := by
  rw [← BitVec.add_eq_or_of_and_eq_zero _ _ (shiftLeft_and_eq_zero hb a), shiftLeft_eq_wrap32, wrap32_add,
    wrap32_u32]

/-- A whole part in range, scaled, leaves room for every fraction below one. -/
theorem fits32_whole_add_fraction {p : Params} {n : Int} (hn : WholeInRange p n) {f : Nat} (hf : f < 2 ^ p.F) :
    Fits32 (n * 2 ^ p.F + f) := by
  obtain ⟨hlow, hhigh⟩ := hn
  have hpow : (2 : Int) ^ (31 - p.F) * 2 ^ p.F = 2 ^ 31 := by
    rw [← pow_add, Nat.sub_add_cancel (params_F_range p).2]
  have hone : (0 : Int) ≤ 2 ^ p.F := by positivity
  have hf' : (f : Int) < 2 ^ p.F := by exact_mod_cast hf
  have hlow' := mul_le_mul_of_nonneg_right hlow hone
  have hhigh' := mul_le_mul_of_nonneg_right hhigh hone
  rw [neg_mul, hpow] at hlow'
  rw [sub_mul, hpow, one_mul] at hhigh'
  constructor <;> linarith

/-- The exactness condition of the constructors: in range and in domain the OR is the exact sum (R70). -/
theorem s32_shiftLeft_or {p : Params} {a b : Word} (ha : WholeInRange p (s32 a)) (hb : u32 b < 2 ^ p.F) :
    s32 (a <<< p.F ||| b) = s32 a * 2 ^ p.F + u32 b := by
  rw [shiftLeft_or_eq_wrap32 hb, s32_wrap32_of_fits (fits32_whole_add_fraction ha hb)]

/-- Settles O52: the word by the rule, its value by the exactness condition, divided by `2^F`. -/
theorem makerOrsTheRawFraction : Obligations.MakerOrsTheRawFraction := by
  intro a b s
  refine ⟨_, decode_cmdWord 0xA#4 a b, exec_of_fxExec_eq_answerOk (fxMaker_eq _ a b), rfl, fun ha hb => ?_⟩
  have hsum := s32_shiftLeft_or ha (Nat.lt_of_le_pred (Nat.two_pow_pos _) hb)
  refine ⟨hsum, ?_⟩
  rw [real, hsum]
  push_cast
  rw [add_div, mul_div_cancel_right₀ _ (by positivity)]

/-! ### The rescaled fraction -/

/-- MAKED's response with the fraction in closed form (R72). -/
theorem fxMaked_eq (p : Params) (a b : Word) :
    fxMaked p a b = answerOk (a <<< p.F ||| BitVec.ofNat 32 (u32 b * 2 ^ p.F / p.Q)) := by
  rw [fxMaked, fracBits_eq, shl32_eq_shiftLeft, wrap32, BitVec.ofInt_natCast]

/-- MAKED is MAKER of the rescaled fraction (R73). -/
theorem fxMaked_eq_fxMaker (p : Params) (a b : Word) :
    fxMaked p a b = fxMaker p a (BitVec.ofNat 32 (u32 b * 2 ^ p.F / p.Q)) := by
  rw [fxMaked_eq, fxMaker_eq]

/-- The sixteen extra bits of the document's formula cancel (R72). -/
theorem mul_65536_div_div_65536 (n q : Nat) : n * 65536 / q / 65536 = n / q := by
  rw [Nat.div_right_comm, Nat.mul_div_cancel n (by norm_num)]

/-- A fraction of less than `Q` units of `1/Q` is rescaled to less than one (R72). -/
theorem rescaled_lt_two_pow_F {p : Params} {n : Nat} (hn : n < p.Q) : n * 2 ^ p.F / p.Q < 2 ^ p.F :=
  Nat.div_lt_of_lt_mul (Nat.mul_lt_mul_of_pos_right hn (Nat.two_pow_pos _))

/-- In its domain the rescaled fraction is a word, so that narrowing leaves it as it is. -/
theorem u32_ofNat_rescaled {p : Params} {n : Nat} (hn : n < p.Q) :
    u32 (BitVec.ofNat 32 (n * 2 ^ p.F / p.Q)) = n * 2 ^ p.F / p.Q := by
  have hfrac := rescaled_lt_two_pow_F hn
  have hF := two_pow_F_le p
  rw [u32, BitVec.toNat_ofNat, Nat.mod_eq_of_lt (by omega)]

/-- Rescaling from units of `1/q` to units of `1/d` rounds down, by less than one unit of `1/d` (R72). -/
theorem rescaled_bounds (n : Nat) {q d : Nat} (hq : 0 < q) (hd : 0 < d) :
    ((n * d / q : Nat) : ℚ) / d ≤ (n : ℚ) / q ∧ (n : ℚ) / q < ((n * d / q : Nat) + 1 : ℚ) / d := by
  have hq' : (0 : ℚ) < q := by exact_mod_cast hq
  have hd' : (0 : ℚ) < d := by exact_mod_cast hd
  rw [div_le_div_iff₀ hd' hq', div_lt_div_iff₀ hq' hd']
  have hlow : n * d / q * q ≤ n * d := Nat.div_mul_le_self _ _
  have hhigh : n * d < (n * d / q + 1) * q := Nat.lt_mul_of_div_lt (Nat.lt_succ_self _) hq
  exact ⟨by exact_mod_cast hlow, by exact_mod_cast hhigh⟩

/-- Settles O53: the rule with its fraction in closed form, which in its domain is one of MAKER's. -/
theorem makedRescalesTheFraction : Obligations.MakedRescalesTheFraction := by
  intro a b s
  refine ⟨_, b.toNat * 2 ^ s.params.F / s.params.Q, decode_cmdWord 0xB#4 a b,
    exec_of_fxExec_eq_answerOk (fxMaked_eq _ a b), (mul_65536_div_div_65536 _ _).symm, rfl, rfl,
    fun hb => Nat.le_pred_of_lt (rescaled_lt_two_pow_F hb), fun ha hb => ?_⟩
  have hword := u32_ofNat_rescaled hb
  have hsum := s32_shiftLeft_or ha (hword.trans_lt (rescaled_lt_two_pow_F hb))
  rw [hword] at hsum
  have hbounds := rescaled_bounds b.toNat (params_Q_range s.params).1 (Nat.two_pow_pos s.params.F)
  rw [Nat.cast_pow, Nat.cast_ofNat] at hbounds
  exact ⟨hsum, hbounds⟩

/-! ### The two constructors -/

/-- Operations that answer alike are executed alike. -/
theorem exec_congr {i j : Instr} {s : State} (h : fxExec s.params i = fxExec s.params j) : exec i s = exec j s := by
  rw [exec_eq_finish_fxExec, h, ← exec_eq_finish_fxExec]

/-- Settles O54: by the closed form, and by the two rules at the zero fraction. -/
theorem makedIsMakerOfRescaledFraction : Obligations.MakedIsMakerOfRescaledFraction := fun a b _ =>
  ⟨exec_congr (fxMaked_eq_fxMaker _ a b), exec_congr ((fxMaked_zero _ a).trans (fxMaker_zero _ a).symm)⟩

/-- Settles O55: rescaling from `Q = 2^F` to `2^F` leaves the fraction as it is, in its domain or not. -/
theorem makerIsMakedAtPowerOfTwo : Obligations.MakerIsMakedAtPowerOfTwo := by
  intro a b s hQ _
  have hfrac : BitVec.ofNat 32 (u32 b * 2 ^ s.params.F / s.params.Q) = b := by
    rw [hQ, Nat.mul_div_cancel _ (Nat.two_pow_pos _), BitVec.ofNat_toNat, BitVec.setWidth_eq]
  have hrule := fxMaked_eq_fxMaker s.params a b
  rw [hfrac] at hrule
  exact exec_congr hrule

end Sys2Proof.Machine
end

section
/-!
PROOFS. The statements of 41_resolve.md: the two resolves (R80, R82), what FLOOR leaves for them (R81), the bit
they differ by (R83), and that they undo the constructors (R84).
-/

namespace Sys2Proof.Machine

/-! ### RESOLVET -/

/-- RESOLVET's response with the shift of R12 as the shift of words. -/
theorem fxResolvet_eq (p : Params) (a : Word) : fxResolvet p a = answerOk (a.sshiftRight p.F) := by
  rw [fxResolvet, asr32_eq_sshiftRight]

/-- The arithmetic right shift is floor division by a power of two (R12). -/
theorem s32_sshiftRight (a : Word) (k : Nat) : s32 (a.sshiftRight k) = s32 a / 2 ^ k := by
  rw [s32, BitVec.toInt_sshiftRight, Int.shiftRight_eq_div_pow, Nat.cast_pow, Nat.cast_ofNat]

/-- The floor of a scaled integer taken as a rational is floor division. -/
theorem floor_div_two_pow (n : Int) (k : Nat) : ⌊(n : ℚ) / 2 ^ k⌋ = n / 2 ^ k := by
  have h := Rat.floor_intCast_div_natCast n (2 ^ k)
  rwa [Nat.cast_pow, Nat.cast_pow, Nat.cast_ofNat, Nat.cast_ofNat] at h

/-- `2^(31-F)` whole parts of `2^F` units each fill the non-negative words. -/
theorem two_pow_whole_mul_two_pow_F (p : Params) : (2 : Int) ^ (31 - p.F) * 2 ^ p.F = 2 ^ 31 := by
  rw [← pow_add, Nat.sub_add_cancel (params_F_range p).2]

/-- The whole part of a value that fits is in range (R80). -/
theorem wholeInRange_ediv (p : Params) {n : Int} (hn : Fits32 n) : WholeInRange p (n / 2 ^ p.F) := by
  obtain ⟨hlow, hhigh⟩ := hn
  have hpos : (0 : Int) < 2 ^ p.F := by positivity
  constructor
  · rw [Int.le_ediv_iff_mul_le hpos, neg_mul, two_pow_whole_mul_two_pow_F]
    exact hlow
  · rw [Int.le_sub_one_iff, Int.ediv_lt_iff_lt_mul hpos, two_pow_whole_mul_two_pow_F]
    exact Int.lt_of_le_sub_one hhigh

/-- The result of RESOLVET always fits the whole parts (R80). -/
theorem wholeInRange_sshiftRight (p : Params) (a : Word) : WholeInRange p (s32 (a.sshiftRight p.F)) := by
  rw [s32_sshiftRight]
  exact wholeInRange_ediv p (s32_bounds a)

/-- Settles O47: the shift is the floor division, which is the floor of the quotient and in range. -/
theorem resolvetIsFloor : Obligations.ResolvetIsFloor := by
  intro a b s
  have hdiv := s32_sshiftRight a s.params.F
  exact ⟨_, decode_cmdWord 0x8#4 a b, exec_of_fxExec_eq_answerOk (fxResolvet_eq _ a), rfl, hdiv,
    hdiv.trans (floor_div_two_pow _ _).symm, wholeInRange_sshiftRight _ a⟩

/-! ### RESOLVER -/

theorem halfPattern_eq_ofNat (p : Params) : halfPattern p = BitVec.ofNat 32 (2 ^ (p.F - 1)) := by
  rw [← u32_halfPattern, u32, BitVec.ofNat_toNat, BitVec.setWidth_eq]

/-- RESOLVER's response with the sum and the shift as those of words (R82). -/
theorem fxResolver_eq (p : Params) (a : Word) :
    fxResolver p a = answerOk ((a + halfPattern p).sshiftRight p.F) := by
  rw [fxResolver, wrap32_add, wrap32_s32, wrap32_u32, asr32_eq_sshiftRight]

/-- The sum with `HALF` is the exact sum, narrowed. -/
theorem add_halfPattern_eq_wrap32 (p : Params) (a : Word) :
    a + halfPattern p = wrap32 (s32 a + 2 ^ (p.F - 1)) := by
  rw [wrap32_add, wrap32_s32]
  rfl

/-- Narrowing takes away `2^32` from a value that fits only without it. -/
theorem s32_wrap32_of_fits_sub {n : Int} (h : Fits32 (n - 2 ^ 32)) : s32 (wrap32 n) = n - 2 ^ 32 := by
  have hword : wrap32 n = wrap32 (n - 2 ^ 32) := by
    rw [sub_eq_add_neg, wrap32_add, show wrap32 (-2 ^ 32) = 0#32 by decide, BitVec.add_zero]
  rw [hword, s32_wrap32_of_fits h]

/-- `ONE` is twice `HALF` (R7). -/
theorem two_pow_F_eq_two_mul_half {R : Type*} [Semiring R] (p : Params) : (2 : R) ^ p.F = 2 * 2 ^ (p.F - 1) := by
  rw [← pow_succ', Nat.sub_add_cancel (params_F_range p).1]

theorem half_le (p : Params) : (2 : Int) ^ (p.F - 1) ≤ 2 ^ 30 :=
  pow_le_pow_right₀ (by norm_num) (Nat.sub_le_of_le_add (params_F_range p).2)

/-- Within the condition of R82 RESOLVER divides the exact sum. -/
theorem s32_resolver_of_exact {p : Params} {a : Word} (ha : s32 a ≤ 2 ^ 31 - 1 - 2 ^ (p.F - 1)) :
    s32 ((a + halfPattern p).sshiftRight p.F) = (s32 a + 2 ^ (p.F - 1)) / 2 ^ p.F := by
  have hpos : (0 : Int) < 2 ^ (p.F - 1) := by positivity
  have hfits : Fits32 (s32 a + 2 ^ (p.F - 1)) := ⟨by linarith [(s32_bounds a).1], by linarith⟩
  rw [s32_sshiftRight, add_halfPattern_eq_wrap32, s32_wrap32_of_fits hfits]

/-- Past the condition of R82 the sum loses `2^32`, which is `2^(32-F)` after the division. -/
theorem s32_resolver_of_not_exact {p : Params} {a : Word} (ha : s32 a > 2 ^ 31 - 1 - 2 ^ (p.F - 1)) :
    s32 ((a + halfPattern p).sshiftRight p.F) = (s32 a + 2 ^ (p.F - 1)) / 2 ^ p.F - 2 ^ (32 - p.F) := by
  have hfits : Fits32 (s32 a + 2 ^ (p.F - 1) - 2 ^ 32) := by
    have hhalf := half_le p
    have hhigh := (s32_bounds a).2
    constructor <;> linarith
  have hpow : (2 : Int) ^ 32 = 2 ^ (32 - p.F) * 2 ^ p.F := by
    rw [← pow_add, Nat.sub_add_cancel ((params_F_range p).2.trans (by norm_num))]
  rw [s32_sshiftRight, add_halfPattern_eq_wrap32, s32_wrap32_of_fits_sub hfits, hpow,
    Int.sub_mul_ediv_right _ _ (by positivity)]

/-- Adding `1/2` to the real value is adding `HALF` to the scaled representation (R82). -/
theorem real_add_half (p : Params) (a : Word) :
    real p a + 1 / 2 = ((s32 a + 2 ^ (p.F - 1) : Int) : ℚ) / 2 ^ p.F := by
  rw [real, two_pow_F_eq_two_mul_half]
  push_cast
  field_simp

/-- Settles O49: the sum fits within the condition and wraps once past it, and the shift divides it. -/
theorem resolverRoundsToNearest : Obligations.ResolverRoundsToNearest := by
  intro a b s
  rw [← halfPattern_eq_ofNat]
  refine ⟨_, decode_cmdWord 0x9#4 a b, exec_of_fxExec_eq_answerOk (fxResolver_eq _ a), rfl, fun ha => ?_,
    s32_resolver_of_not_exact⟩
  have hdiv := s32_resolver_of_exact ha
  refine ⟨hdiv, ?_⟩
  rw [real_add_half, floor_div_two_pow]
  exact hdiv

/-! ### The difference of the resolves -/

/-- Bit `i` of a word is the parity of its signed reading divided by `2^i`. -/
theorem getLsbD_iff_s32_ediv (a : Word) {i : Nat} (hi : i < 32) :
    a.getLsbD i = true ↔ s32 a / 2 ^ i % 2 = 1 := by
  have hbit : a.getLsbD i = (a.sshiftRight i).getLsbD 0 := by
    rw [BitVec.getLsbD_sshiftRight, Nat.add_zero, if_pos hi]
    rfl
  have hparity : s32 (a.sshiftRight i) % 2 = u32 (a.sshiftRight i) % 2 := by
    rw [s32, BitVec.toInt_eq_toNat_cond, u32]
    split <;> omega
  rw [hbit, getLsbD_eq_testBit_u32, Nat.testBit_zero, decide_eq_true_eq, ← s32_sshiftRight, hparity]
  omega

/-- Rounding to nearest adds the parity of the number of halves to rounding down (R83). -/
theorem add_half_ediv (n : Int) {h : Int} (hh : 0 < h) :
    (n + h) / (2 * h) = n / (2 * h) + if n / h % 2 = 1 then 1 else 0 := by
  rw [mul_comm 2 h, ← Int.ediv_ediv_of_nonneg hh.le, ← Int.ediv_ediv_of_nonneg hh.le,
    Int.add_ediv_of_dvd_right (dvd_refl h), Int.ediv_self hh.ne']
  split <;> omega

/-- Settles O50: with `2^F` as two halves, bit `F-1` is the parity of the number of halves. -/
theorem resolvesDifferByTopFractionBit : Obligations.ResolvesDifferByTopFractionBit := by
  intro a b s ha
  refine ⟨_, _, exec_of_fxExec_eq_answerOk (fxResolver_eq _ a), exec_of_fxExec_eq_answerOk (fxResolvet_eq _ a), ?_⟩
  have hbit := getLsbD_iff_s32_ediv a (i := s.params.F - 1) (by have := params_F_range s.params; omega)
  change s32 _ = s32 _ + _
  rw [s32_resolver_of_exact ha, s32_sshiftRight, two_pow_F_eq_two_mul_half, add_half_ediv _ (by positivity)]
  simp only [hbit]

/-! ### Values with a zero fraction -/

/-- The shift drops a fraction below one and gives a whole part in range back. -/
theorem sshiftRight_shiftLeft_or {p : Params} {q b : Word} (hq : WholeInRange p (s32 q)) (hb : u32 b < 2 ^ p.F) :
    (q <<< p.F ||| b).sshiftRight p.F = q := by
  have hb' : (u32 b : Int) < 2 ^ p.F := by exact_mod_cast hb
  apply BitVec.eq_of_toInt_eq
  change s32 _ = s32 q
  rw [s32_sshiftRight, s32_shiftLeft_or hq hb, add_comm, Int.add_mul_ediv_right _ _ (by positivity),
    Int.ediv_eq_zero_of_lt (Int.natCast_nonneg _) hb', zero_add]

/-- RESOLVET of a whole part in range with a zero fraction is the whole part (R84). -/
theorem fxResolvet_shiftLeft {p : Params} {q : Word} (hq : WholeInRange p (s32 q)) :
    fxResolvet p (q <<< p.F) = answerOk q := by
  have h := sshiftRight_shiftLeft_or hq (b := 0#32) (Nat.two_pow_pos _)
  rw [BitVec.or_zero] at h
  rw [fxResolvet_eq, h]

/-- RESOLVER of a whole part in range with a zero fraction is the whole part: `HALF` is a fraction (R84). -/
theorem fxResolver_shiftLeft {p : Params} {q : Word} (hq : WholeInRange p (s32 q)) :
    fxResolver p (q <<< p.F) = answerOk q := by
  have hhalf : u32 (halfPattern p) < 2 ^ p.F := by
    rw [u32_halfPattern]
    exact Nat.pow_lt_pow_right (by norm_num) (Nat.sub_lt (params_F_range p).1 one_pos)
  rw [fxResolver_eq, BitVec.add_eq_or_of_and_eq_zero _ _ (shiftLeft_and_eq_zero hhalf q),
    sshiftRight_shiftLeft_or hq hhalf]

/-- Clearing the fraction bits is shifting them out and shifting zeros in (R81, R121). -/
theorem and_not_maskPattern (p : Params) (a : Word) :
    a &&& ~~~ maskPattern p = a.sshiftRight p.F <<< p.F := by
  apply BitVec.eq_of_getLsbD_eq
  intro i hi
  have hmask := not_maskPattern_getLsbD p hi
  rw [BitVec.getLsbD_and, BitVec.getLsbD_shiftLeft, BitVec.getLsbD_sshiftRight]
  by_cases hiF : i < p.F
  · simp [hiF, Bool.eq_false_iff.mpr (mt hmask.mp hiF.not_ge)]
  · have hback : p.F + (i - p.F) = i := Nat.add_sub_cancel' (not_lt.mp hiF)
    have hlow : ¬ 32 ≤ i - p.F := by omega
    rw [hmask.mpr (not_lt.mp hiF), hback, if_pos hi]
    simp [hi, hiF, hlow]

/-- FLOOR is RESOLVET shifted back (R81). -/
theorem fxFloor_eq (p : Params) (a : Word) : fxFloor p a = answerOk (a.sshiftRight p.F <<< p.F) := by
  rw [fxFloor, and_not_maskPattern]

/-- Settles O48: FLOOR leaves the whole part of RESOLVET, in range, with a zero fraction. -/
theorem resolvetAndFloorAgree : Obligations.ResolvetAndFloorAgree := by
  intro a b s
  have hq := wholeInRange_sshiftRight s.params a
  exact ⟨_, _, exec_of_fxExec_eq_answerOk (fxResolvet_eq _ a), exec_of_fxExec_eq_answerOk (fxFloor_eq _ a), rfl,
    exec_of_fxExec_eq_answerOk (fxResolvet_shiftLeft hq), exec_of_fxExec_eq_answerOk (fxResolver_shiftLeft hq)⟩

/-- Settles O51: with a zero fraction both constructors shift the whole part. -/
theorem resolveUndoesMake : Obligations.ResolveUndoesMake := fun i _ _ hi =>
  ⟨_, exec_of_fxExec_eq_answerOk (fxMaker_zero _ i), exec_of_fxExec_eq_answerOk (fxMaked_zero _ i),
    exec_of_fxExec_eq_answerOk (fxResolvet_shiftLeft hi), exec_of_fxExec_eq_answerOk (fxResolver_shiftLeft hi)⟩

end Sys2Proof.Machine
end

section
/-!
PROOFS. The statements of 42_addsub.md: the wrapping sum and difference (R90, R92), negation and subtraction
through ADD (R92), the two overflow predicates (R91, R93), and the command words printed in the instruction rules.
-/

namespace Sys2Proof.Machine

/-! ### The sum -/

theorem add_eq_wrap32 (a b : Word) : a + b = wrap32 (s32 a + s32 b) := by
  rw [wrap32_add, wrap32_s32, wrap32_s32]

/-- ADD's response with the sum as that of words (R90). -/
theorem fxAdd_eq (a b : Word) : fxAdd a b = answerOk (a + b) := by
  rw [fxAdd, ← add_eq_wrap32]

/-- The exactness condition of ADD: a sum that fits is not wrapped (R90). -/
theorem s32_add_of_fits {a b : Word} (h : Fits32 (s32 a + s32 b)) : s32 (a + b) = s32 a + s32 b := by
  rw [add_eq_wrap32, s32_wrap32_of_fits h]

/-- Values at one scale add as their scaled representations do (R90). -/
theorem real_eq_add_of_s32_eq {a b r : Word} (h : s32 r = s32 a + s32 b) (p : Params) :
    real p r = real p a + real p b := by
  rw [real, h, Int.cast_add, add_div, real, real]

/-- Settles O32: the word sum is the narrowed exact sum, and the sum of words commutes with neutral zero. -/
theorem addWrapsModulo : Obligations.AddWrapsModulo := by
  intro a b s
  refine ⟨a + b, decode_cmdWord 0x0#4 a b, exec_of_fxExec_eq_answerOk (fxAdd_eq a b), ?_, fun hfits => ?_, ?_, ?_⟩
  · rw [add_eq_wrap32]
    exact u32_wrap32 _
  · have hsum := s32_add_of_fits hfits
    exact ⟨hsum, real_eq_add_of_s32_eq hsum _⟩
  · rw [BitVec.add_comm a b]
    exact exec_of_fxExec_eq_answerOk (fxAdd_eq b a)
  · rintro rfl
    exact BitVec.add_zero a

/-! ### The difference -/

theorem wrap32_sub (m n : Int) : wrap32 (m - n) = wrap32 m - wrap32 n := by
  rw [sub_eq_add_neg, wrap32_add, BitVec.sub_eq_add_neg, ← BitVec.ofInt_neg]

theorem sub_eq_wrap32 (a b : Word) : a - b = wrap32 (s32 a - s32 b) := by
  rw [wrap32_sub, wrap32_s32, wrap32_s32]

/-- SUB's response with the difference as that of words (R92). -/
theorem fxSub_eq (a b : Word) : fxSub a b = answerOk (a - b) := by
  rw [fxSub, ← sub_eq_wrap32]

/-- Negation is `SUB 0, B` (R92). -/
theorem fxSub_zero (b : Word) : fxSub 0#32 b = answerOk (-b) := by
  rw [fxSub_eq, BitVec.zero_sub]

/-- SUB is ADD of the negated subtrahend, wraps included (R92). -/
theorem fxAdd_neg (a b : Word) : fxAdd a (-b) = answerOk (a - b) := by
  rw [fxAdd_eq, BitVec.sub_eq_add_neg]

/-- The exactness condition of SUB: a difference that fits is not wrapped (R92). -/
theorem s32_sub_of_fits {a b : Word} (h : Fits32 (s32 a - s32 b)) : s32 (a - b) = s32 a - s32 b := by
  rw [sub_eq_wrap32, s32_wrap32_of_fits h]

/-- Values at one scale subtract as their scaled representations do (R92). -/
theorem real_eq_sub_of_s32_eq {a b r : Word} (h : s32 r = s32 a - s32 b) (p : Params) :
    real p r = real p a - real p b := by
  rw [real, h, Int.cast_sub, sub_div, real, real]

/-- Settles O34: the word difference is the narrowed exact one, and the sum with the negated subtrahend. -/
theorem subWrapsModulo : Obligations.SubWrapsModulo := by
  intro a b s
  refine ⟨a - b, -b, decode_cmdWord 0x1#4 a b, exec_of_fxExec_eq_answerOk (fxSub_eq a b), ?_, fun hfits => ?_,
    exec_of_fxExec_eq_answerOk (fxSub_zero b), fun hb => ?_, ?_, exec_of_fxExec_eq_answerOk (fxAdd_neg a b), ?_⟩
  · rw [sub_eq_wrap32]
    exact u32_wrap32 _
  · have hdiff := s32_sub_of_fits hfits
    exact ⟨hdiff, real_eq_sub_of_s32_eq hdiff _⟩
  · exact BitVec.toInt_neg_of_ne_intMin hb
  · rintro rfl
    exact BitVec.neg_intMin
  · rintro rfl
    exact BitVec.sub_self a

/-! ### The overflow predicates -/

/-- Bit 31 of a word is its sign bit. -/
theorem getLsbD_31 (a : Word) : a.getLsbD 31 = a.msb := (BitVec.msb_eq_getLsbD_last a).symm

/-- An integer does not fit exactly when it is past one of the two ends of the range. -/
theorem not_fits32_iff (n : Int) : ¬ Fits32 n ↔ 2 ^ 31 ≤ n ∨ n < -2 ^ 31 := by
  rw [Fits32]
  omega

/-- The sign bits of R91 are the signed overflow of the word addition. -/
theorem addOvf_iff_saddOverflow (a b : Word) : addOvf a b ↔ a.saddOverflow b = true := by
  rw [addOvf, ← add_eq_wrap32, BitVec.saddOverflow_eq]
  simp

theorem saddOverflow_iff_not_fits (a b : Word) : a.saddOverflow b = true ↔ ¬ Fits32 (s32 a + s32 b) := by
  rw [not_fits32_iff, BitVec.saddOverflow, Bool.or_eq_true, decide_eq_true_eq, decide_eq_true_eq]

/-- Settles O33: both characterisations are the signed overflow of the word addition. -/
theorem addOverflowPredicate : Obligations.AddOverflowPredicate := by
  intro a b s
  refine ⟨a + b, exec_of_fxExec_eq_answerOk (fxAdd_eq a b), ?_,
    (addOvf_iff_saddOverflow a b).trans (saddOverflow_iff_not_fits a b)⟩
  rw [getLsbD_31, getLsbD_31, getLsbD_31, add_eq_wrap32, addOvf]

/-- The sign bits of R93 are the signed overflow of the word subtraction. -/
theorem subOvf_iff_ssubOverflow (a b : Word) : subOvf a b ↔ a.ssubOverflow b = true := by
  rw [subOvf, ← sub_eq_wrap32, BitVec.ssubOverflow_eq]
  cases a.msb <;> cases b.msb <;> simp

theorem ssubOverflow_iff_not_fits (a b : Word) : a.ssubOverflow b = true ↔ ¬ Fits32 (s32 a - s32 b) := by
  rw [not_fits32_iff, BitVec.ssubOverflow, Bool.or_eq_true, decide_eq_true_eq, decide_eq_true_eq]

/-- Settles O35: both characterisations are the signed overflow of the word subtraction. -/
theorem subOverflowPredicate : Obligations.SubOverflowPredicate := by
  intro a b s
  refine ⟨a - b, exec_of_fxExec_eq_answerOk (fxSub_eq a b), ?_,
    (subOvf_iff_ssubOverflow a b).trans (ssubOverflow_iff_not_fits a b)⟩
  rw [getLsbD_31, getLsbD_31, getLsbD_31, sub_eq_wrap32, subOvf]

/-! ### Printed command words -/

/-- Settles O5: each printed word is the encoding of the instruction it stands for. -/
theorem printedWordsDecode : Obligations.PrintedWordsDecode :=
  ⟨decode_encode (.add 0x140#32 0xC0#32), decode_encode (.mul 0x140#32 0xC0#32),
    decode_encode (.divn 0x500#32 0x200#32), decode_encode (.ceil 0x180#32 0#32),
    decode_encode (.resolver 0x200#32 0#32), decode_encode (.maked 1#32 250#32),
    decode_encode (.reservedE 0x12345678#32 0xFFFFFFFF#32)⟩

end Sys2Proof.Machine
end

section
/-!
PROOFS. The statements of 43_multiply.md: the widened product and its narrowing (R100), the overflow predicate by
the bits of that product (R101), and the native product beside it (R102).
-/

namespace Sys2Proof.Machine

/-! ### The 64-bit product -/

/-- The product of the two operands widened to 64 bits, `P` in R100 and R101. -/
abbrev wideProduct (a b : Word) : BitVec 64 := a.signExtend 64 * b.signExtend 64

theorem abs_s32_le (a : Word) : |s32 a| ≤ 2 ^ 31 :=
  abs_le.mpr ⟨(s32_bounds a).1, by linarith [(s32_bounds a).2]⟩

/-- The 64-bit product is exact: of two words it is at most `2^62` in magnitude (R100). -/
theorem toInt_wideProduct (a b : Word) : (wideProduct a b).toInt = s32 a * s32 b := by
  have hbound : |a.toInt * b.toInt| ≤ 2 ^ 31 * 2 ^ 31 := by
    rw [abs_mul]
    exact mul_le_mul (abs_s32_le a) (abs_s32_le b) (abs_nonneg _) (by norm_num)
  obtain ⟨hlow, hhigh⟩ := abs_le.mp hbound
  rw [BitVec.toInt_mul, BitVec.toInt_signExtend_of_le (by norm_num), BitVec.toInt_signExtend_of_le (by norm_num)]
  apply Int.bmod_eq_of_le <;> norm_num at * <;> omega

/-- Narrowing the value of a 64-bit word keeps its low 32 bits (R100). -/
theorem wrap32_toInt (x : BitVec 64) : wrap32 x.toInt = x.setWidth 32 := by
  rw [← BitVec.signExtend_eq_setWidth_of_le x (by norm_num), BitVec.signExtend]

theorem wrap32_zero : wrap32 0 = 0#32 := rfl

/-- The arithmetic right shift of a word of any width is floor division by a power of two (R12). -/
theorem toInt_sshiftRight_eq_ediv {w : Nat} (x : BitVec w) (k : Nat) : (x.sshiftRight k).toInt = x.toInt / 2 ^ k := by
  rw [BitVec.toInt_sshiftRight, Int.shiftRight_eq_div_pow, Nat.cast_pow, Nat.cast_ofNat]

/-- The 64-bit datapath, shift and narrowing included, on exact integers (R100). -/
theorem setWidth_sshiftRight_wideProduct (a b : Word) (k : Nat) :
    ((wideProduct a b).sshiftRight k).setWidth 32 = wrap32 (s32 a * s32 b / 2 ^ k) := by
  rw [← wrap32_toInt, toInt_sshiftRight_eq_ediv, toInt_wideProduct]

/-- The low half of the 64-bit product is the product of words. -/
theorem setWidth_wideProduct (a b : Word) : (wideProduct a b).setWidth 32 = a * b := by
  rw [← wrap32_toInt, toInt_wideProduct, wrap32_mul, wrap32_s32, wrap32_s32]

/-- An arithmetic right shift moves bits down and copies the top bit into the places left free (R12). -/
theorem getLsbD_sshiftRight_min {w : Nat} (x : BitVec w) (k : Nat) {i : Nat} (hi : i < w) :
    (x.sshiftRight k).getLsbD i = x.getLsbD (min (k + i) (w - 1)) := by
  rw [BitVec.getLsbD_sshiftRight, decide_eq_false hi.not_ge, Bool.not_false, Bool.true_and,
    BitVec.msb_eq_getLsbD_last]
  split
  · rw [min_eq_left (by omega)]
  · rw [min_eq_right (by omega)]

/-- Widening copies the top bit into the places above it (R100). -/
theorem getLsbD_signExtend_min {v w : Nat} (x : BitVec w) {i : Nat} (hi : i < v) :
    (x.signExtend v).getLsbD i = x.getLsbD (min i (w - 1)) := by
  rw [BitVec.getLsbD_signExtend, decide_eq_true hi, Bool.true_and, BitVec.msb_eq_getLsbD_last]
  split
  · rw [min_eq_left (by omega)]
  · rw [min_eq_right (by omega)]

/-! ### MUL -/

/-- MUL's response as the narrowed floor of the exact product (R100). -/
theorem fxMul_eq_floor (p : Params) (a b : Word) : fxMul p a b = answerOk (wrap32 (s32 a * s32 b / 2 ^ p.F)) := rfl

/-- MUL's response as the 64-bit datapath. -/
theorem fxMul_eq (p : Params) (a b : Word) :
    fxMul p a b = answerOk (((wideProduct a b).sshiftRight p.F).setWidth 32) := by
  rw [fxMul_eq_floor, setWidth_sshiftRight_wideProduct]

theorem fxMul_comm (p : Params) (a b : Word) : fxMul p a b = fxMul p b a := by
  rw [fxMul_eq_floor, fxMul_eq_floor, mul_comm]

/-- Scaling the product of two real values by `2^F` takes one of the two divisions by `2^F` away (R100). -/
theorem real_mul_real (p : Params) (a b : Word) :
    real p a * real p b * 2 ^ p.F = ((s32 a * s32 b : Int) : ℚ) / 2 ^ p.F := by
  rw [real, real]
  push_cast
  field_simp

/-- Up to `F = 30` the pattern of `ONE` is read as `2^F` (R100). -/
theorem s32_onePattern {p : Params} (hF : p.F ≤ 30) : s32 (onePattern p) = 2 ^ p.F := by
  have hle : (2 : Int) ^ p.F ≤ 2 ^ 30 := pow_le_pow_right₀ (by norm_num) hF
  have hpos : (0 : Int) < 2 ^ p.F := by positivity
  exact s32_wrap32_of_fits ⟨by linarith, by linarith⟩

/-- At `F = 31` the pattern of `ONE` is read as `-2^31` (R100). -/
theorem s32_onePattern_of_F_eq_31 {p : Params} (hF : p.F = 31) : s32 (onePattern p) = -2 ^ p.F := by
  rw [onePattern, hF]
  decide

/-- The shift takes back the factor `ONE` (R100). -/
theorem wideProduct_onePattern {p : Params} (hF : p.F ≤ 30) (a : Word) :
    ((wideProduct a (onePattern p)).sshiftRight p.F).setWidth 32 = a := by
  rw [setWidth_sshiftRight_wideProduct, s32_onePattern hF, Int.mul_ediv_cancel _ (by positivity), wrap32_s32]

/-- At `F = 31` the factor `ONE` is `-1.0` (R100). -/
theorem wideProduct_onePattern_of_F_eq_31 {p : Params} (hF : p.F = 31) (a : Word) :
    ((wideProduct a (onePattern p)).sshiftRight p.F).setWidth 32 = -a := by
  rw [setWidth_sshiftRight_wideProduct, s32_onePattern_of_F_eq_31 hF, mul_neg, ← neg_mul,
    Int.mul_ediv_cancel _ (by positivity), wrap32, BitVec.ofInt_neg, BitVec.ofInt_toInt]

/-- Settles O36: the datapath word is the narrowed floor of the exact product, from which the rest is read off. -/
theorem mulIsTheWidenedDatapath : Obligations.MulIsTheWidenedDatapath := by
  intro a b s
  refine ⟨((wideProduct a b).sshiftRight s.params.F).setWidth 32, decode_cmdWord 0x2#4 a b,
    exec_of_fxExec_eq_answerOk (fxMul_eq _ a b), rfl, fun hfits => ?_,
    exec_of_fxExec_eq_answerOk ((fxMul_comm _ b a).trans (fxMul_eq _ a b)), ?_, ?_, ?_⟩
  · have hfloor : s32 (((wideProduct a b).sshiftRight s.params.F).setWidth 32) =
        s32 a * s32 b / 2 ^ s.params.F := by
      rw [setWidth_sshiftRight_wideProduct, s32_wrap32_of_fits hfits]
    refine ⟨hfloor, ?_⟩
    rw [real_mul_real, floor_div_two_pow, real, hfloor]
  · rintro rfl
    rw [setWidth_sshiftRight_wideProduct, s32, BitVec.toInt_zero, zero_mul, Int.zero_ediv, wrap32_zero]
  · rintro rfl hF
    exact wideProduct_onePattern hF a
  · rintro rfl hF
    exact wideProduct_onePattern_of_F_eq_31 hF a

/-! ### The overflow predicate -/

/-- An integer fits exactly when narrowing loses nothing of it. -/
theorem fits32_iff_s32_wrap32 (n : Int) : Fits32 n ↔ s32 (wrap32 n) = n :=
  ⟨s32_wrap32_of_fits, fun h => h ▸ s32_bounds (wrap32 n)⟩

/-- A 64-bit word is widened from its low half exactly when its upper bits copy bit 31 of that half. -/
theorem signExtend_setWidth_eq_iff (x : BitVec 64) :
    (x.setWidth 32).signExtend 64 = x ↔ ∀ i, 31 ≤ i → i ≤ 63 → x.getLsbD i = x.getLsbD 63 := by
  rw [BitVec.eq_of_getLsbD_eq_iff]
  have hbit {i : Nat} (hi : i < 64) :
      ((x.setWidth 32).signExtend 64).getLsbD i = x.getLsbD (min i 31) := by
    rw [getLsbD_signExtend_min _ hi, BitVec.getLsbD_setWidth, decide_eq_true (by omega), Bool.true_and]
  constructor
  · intro h i hlow hhigh
    have hcopy {j : Nat} (hj : 31 ≤ j) (hj' : j < 64) : x.getLsbD j = x.getLsbD 31 := by
      rw [← h j hj', hbit hj', min_eq_right hj]
    rw [hcopy hlow (by omega), hcopy (j := 63) (by norm_num) (by norm_num)]
  · intro h i hi
    rw [hbit hi]
    rcases Nat.le_total i 31 with hle | hle
    · rw [min_eq_left hle]
    · rw [min_eq_right hle, h i hle (by omega), h 31 le_rfl (by norm_num)]

/-- A 64-bit word fits 32 bits exactly when its bits from 31 up are all equal (R101). -/
theorem fits32_toInt_iff (x : BitVec 64) :
    Fits32 x.toInt ↔ ∀ i, 31 ≤ i → i ≤ 63 → x.getLsbD i = x.getLsbD 63 := by
  rw [fits32_iff_s32_wrap32, wrap32_toInt, ← signExtend_setWidth_eq_iff, ← BitVec.toInt_inj,
    BitVec.toInt_signExtend_of_le (by norm_num)]

/-- Shifting right by `k` brings the bits from `31 + k` up to the places from 31 up. -/
theorem sshiftRight_bits_eq_iff (x : BitVec 64) {k : Nat} (hk : k ≤ 32) :
    (∀ i, 31 ≤ i → i ≤ 63 → (x.sshiftRight k).getLsbD i = (x.sshiftRight k).getLsbD 63) ↔
      ∀ i, 31 + k ≤ i → i ≤ 63 → x.getLsbD i = x.getLsbD 63 := by
  have hbit {i : Nat} (hi : i ≤ 63) : (x.sshiftRight k).getLsbD i = x.getLsbD (min (k + i) 63) :=
    getLsbD_sshiftRight_min x k (Nat.lt_succ_of_le hi)
  rw [hbit le_rfl, min_eq_right (Nat.le_add_left _ _)]
  constructor
  · intro h i hlow hhigh
    have hi := h (i - k) (by omega) (by omega)
    rwa [hbit (by omega), Nat.add_sub_cancel' (by omega), min_eq_left hhigh] at hi
  · intro h i hlow hhigh
    rw [hbit hhigh]
    exact h _ (by omega) (min_le_right _ _)

/-- Settles O37: the shifted product fits exactly when its bits from 31 up, bits `31+F` up of the product, agree. -/
theorem mulOverflowByProductBits : Obligations.MulOverflowByProductBits := by
  intro p a b
  refine ⟨Iff.rfl, not_congr ?_⟩
  have hF : p.F ≤ 32 := (params_F_range p).2.trans (by norm_num)
  rw [← sshiftRight_bits_eq_iff (wideProduct a b) hF, ← fits32_toInt_iff, toInt_sshiftRight_eq_ediv,
    toInt_wideProduct, floorDiv]

/-! ### MULN -/

/-- MULN's response with the product and the shift as those of words (R102). -/
theorem fxMuln_eq (p : Params) (a b : Word) : fxMuln p a b = answerOk ((a * b).sshiftRight p.F) := by
  rw [fxMuln, wrap32_mul, wrap32_s32, wrap32_s32, asr32_eq_sshiftRight]

/-- The exactness condition of MULN: a product that fits is not wrapped (R102). -/
theorem s32_mul_of_fits {a b : Word} (h : Fits32 (s32 a * s32 b)) : s32 (a * b) = s32 a * s32 b := by
  rw [← setWidth_wideProduct, ← wrap32_toInt, toInt_wideProduct, s32_wrap32_of_fits h]

/-- Shifting before or after narrowing is the same when narrowing loses nothing (R102). -/
theorem sshiftRight_mul_of_fits {a b : Word} (h : Fits32 (s32 a * s32 b)) (k : Nat) :
    (a * b).sshiftRight k = ((wideProduct a b).sshiftRight k).setWidth 32 := by
  rw [setWidth_sshiftRight_wideProduct, ← s32_mul_of_fits h, ← s32_sshiftRight, wrap32_s32]

/-- Each bit of MUL's result is the bit of the 64-bit product `F` places up (R102). -/
theorem getLsbD_setWidth_sshiftRight (x : BitVec 64) {k i : Nat} (hk : k ≤ 32) (hi : i < 32) :
    ((x.sshiftRight k).setWidth 32).getLsbD i = x.getLsbD (i + k) := by
  rw [BitVec.getLsbD_setWidth, decide_eq_true hi, Bool.true_and, getLsbD_sshiftRight_min x k (by omega),
    min_eq_left (by omega), Nat.add_comm]

/-- The word product has the bits of the low half of the 64-bit product. -/
theorem getLsbD_mul (a b : Word) {i : Nat} (hi : i < 32) : (a * b).getLsbD i = (wideProduct a b).getLsbD i := by
  rw [← setWidth_wideProduct, BitVec.getLsbD_setWidth, decide_eq_true hi, Bool.true_and]

/-- The word product with `ONE` is the shift by `F` (R7). -/
theorem mul_onePattern (p : Params) (a : Word) : a * onePattern p = a <<< p.F := by
  rw [shiftLeft_eq_wrap32, wrap32_mul, wrap32_s32, onePattern]

/-- Shifting up and back by `k` loses the top `k` bits to copies of bit `31-k` (R102). -/
theorem getLsbD_sshiftRight_shiftLeft (a : Word) {k i : Nat} (hk : k ≤ 31) (hi : i < 32) :
    ((a <<< k).sshiftRight k).getLsbD i = a.getLsbD (min i (31 - k)) := by
  have hback : min (k + i) 31 - k = min i (31 - k) := by omega
  rw [getLsbD_sshiftRight_min _ k hi, BitVec.getLsbD_shiftLeft, decide_eq_true (by omega),
    decide_eq_false (by omega), Bool.not_false, Bool.true_and, Bool.true_and, hback]

/-- Settles O38: the bits of both results are those of the 64-bit product, MULN's only of its low half. -/
theorem mulnIsTheNativeDatapath : Obligations.MulnIsTheNativeDatapath := by
  intro a b s
  obtain ⟨-, hF⟩ := params_F_range s.params
  refine ⟨_, _, decode_cmdWord 0x4#4 a b, exec_of_fxExec_eq_answerOk (fxMuln_eq _ a b), rfl,
    exec_of_fxExec_eq_answerOk (fxMul_eq _ a b), fun hfits => sshiftRight_mul_of_fits hfits _, fun i hi => ?_,
    fun i hlow hhigh => ⟨?_, getLsbD_setWidth_sshiftRight _ (by omega) hhigh⟩, ?_⟩
  · rw [getLsbD_setWidth_sshiftRight _ (by omega) (by omega), getLsbD_sshiftRight_min _ _ (by omega),
      min_eq_left (by omega), Nat.add_comm, getLsbD_mul a b (by omega)]
  · rw [getLsbD_sshiftRight_min _ _ hhigh, min_eq_right (by omega)]
  · rintro rfl i hi
    rw [mul_onePattern, getLsbD_sshiftRight_shiftLeft a hF hi]

end Sys2Proof.Machine
end

section
/-!
PROOFS. The statements of 44_divide.md: the widened quotient and its narrowing (R110), the overflow predicate
(R111), the native quotient beside it (R112), and a product divided by its factor (R114).
-/

namespace Sys2Proof.Machine

/-! ### The quotient rounded toward zero -/

/-- A quotient rounded toward zero times its divisor is at most the dividend in magnitude (R12). -/
theorem abs_tdiv_mul_abs_le (n d : Int) : |n.tdiv d| * |d| ≤ |n| := by
  rw [Int.abs_eq_natAbs, Int.abs_eq_natAbs, Int.abs_eq_natAbs, Int.natAbs_tdiv]
  exact_mod_cast Nat.div_mul_le_self n.natAbs d.natAbs

/-- A quotient rounded toward zero leaves a remainder below the divisor in magnitude (R12). -/
theorem abs_tdiv_mul_sub_lt (n : Int) {d : Int} (hd : d ≠ 0) : |n.tdiv d * d - n| < |d| := by
  have hrem : n.tdiv d * d - n = -n.tmod d := by linarith [Int.tdiv_mul_add_tmod n d]
  rw [hrem, abs_neg, Int.abs_eq_natAbs, Int.abs_eq_natAbs, Int.natAbs_tmod]
  exact_mod_cast Nat.mod_lt _ (Int.natAbs_pos.mpr hd)

/-- A divisor at least as large as the scale `u` of the dividend gives a quotient no larger than the unscaled
dividend (R111). -/
theorem abs_tdiv_scaled_le (a : Int) {b u : Int} (hu : 0 < u) (hb : u ≤ |b|) : |(a * u).tdiv b| ≤ |a| := by
  have hmul : |(a * u).tdiv b| * |b| ≤ |a| * |b| := calc
    |(a * u).tdiv b| * |b| ≤ |a * u| := abs_tdiv_mul_abs_le _ _
    _ = |a| * u := by rw [abs_mul, abs_of_pos hu]
    _ ≤ |a| * |b| := mul_le_mul_of_nonneg_left hb (abs_nonneg a)
  exact le_of_mul_le_mul_right hmul (hu.trans_le hb)

/-- With such a divisor the quotient is `2^31` only where `-2^31` is divided by minus the scale (R111). -/
theorem tdiv_scaled_eq_two_pow_31_iff {a b u : Int} (ha : Fits32 a) (hu : 0 < u) (hb : u ≤ |b|) :
    (a * u).tdiv b = 2 ^ 31 ↔ a = -2 ^ 31 ∧ b = -u := by
  have habs : |(2 : Int) ^ 31| = 2 ^ 31 := abs_of_pos (by norm_num)
  constructor
  · intro hq
    have hle := abs_tdiv_scaled_le a hu hb
    have hmul := abs_tdiv_mul_abs_le (a * u) b
    rw [hq, habs] at hle hmul
    obtain rfl : a = -2 ^ 31 := by
      rcases le_abs.mp hle with h | h
      · exact absurd (h.trans ha.2) (by norm_num)
      · linarith [ha.1]
    have hbu : |b| = u := by
      rw [abs_mul, abs_of_pos hu, abs_neg, habs] at hmul
      linarith
    rcases (abs_eq hu.le).mp hbu with rfl | rfl
    · rw [Int.mul_tdiv_cancel _ hu.ne'] at hq
      exact absurd hq (by norm_num)
    · exact ⟨rfl, rfl⟩
  · rintro ⟨rfl, rfl⟩
    rw [Int.tdiv_neg, Int.mul_tdiv_cancel _ hu.ne', neg_neg]

theorem s32_ne_zero {b : Word} (h : b ≠ 0#32) : s32 b ≠ 0 := fun h' =>
  h (BitVec.eq_of_toInt_eq (h'.trans BitVec.toInt_zero.symm))

/-! ### DIV -/

/-- The first operand widened to 64 bits and scaled by `2^F`, `N` in R110. -/
abbrev wideNumerator (p : Params) (a : Word) : BitVec 64 := a.signExtend 64 <<< p.F

/-- A word times `2^F` is at most `2^62` in magnitude (R110). -/
theorem abs_s32_mul_two_pow_F_le (p : Params) (a : Word) : |s32 a * 2 ^ p.F| ≤ 2 ^ 62 := by
  have hF : (2 : Int) ^ p.F ≤ 2 ^ 31 := by exact_mod_cast two_pow_F_le p
  calc |s32 a * 2 ^ p.F| = |s32 a| * 2 ^ p.F := by rw [abs_mul, abs_of_pos (by positivity : (0 : Int) < 2 ^ p.F)]
    _ ≤ 2 ^ 31 * 2 ^ 31 := mul_le_mul (abs_s32_le a) hF (by positivity) (by norm_num)
    _ = 2 ^ 62 := by norm_num

/-- The scaling in 64 bits is exact (R110). -/
theorem toInt_wideNumerator (p : Params) (a : Word) : (wideNumerator p a).toInt = s32 a * 2 ^ p.F := by
  have hF := (params_F_range p).2
  have hbound : |a.toInt * 2 ^ p.F| ≤ 2 ^ 62 := abs_s32_mul_two_pow_F_le p a
  obtain ⟨hlow, hhigh⟩ := abs_le.mp hbound
  have hpow : (BitVec.twoPow 64 p.F).toInt = 2 ^ p.F := by
    rw [BitVec.toInt_twoPow, if_neg (by omega), if_neg (by omega)]
  rw [wideNumerator, BitVec.shiftLeft_eq_mul_twoPow, BitVec.toInt_mul, hpow,
    BitVec.toInt_signExtend_of_le (by norm_num)]
  apply Int.bmod_eq_of_le <;> norm_num at * <;> omega

/-- The widened division cannot itself overflow: its numerator is never the most negative value (R110). -/
theorem wideNumerator_ne_intMin (p : Params) (a : Word) : wideNumerator p a ≠ BitVec.intMin 64 := by
  intro h
  have hlow := (abs_le.mp (abs_s32_mul_two_pow_F_le p a)).1
  rw [← toInt_wideNumerator, h] at hlow
  exact absurd hlow (by decide)

/-- The 64-bit datapath, narrowing included, on exact integers (R110). -/
theorem setWidth_sdiv_wideNumerator (p : Params) (a b : Word) :
    ((wideNumerator p a).sdiv (b.signExtend 64)).setWidth 32 = wrap32 ((s32 a * 2 ^ p.F).tdiv (s32 b)) := by
  rw [← wrap32_toInt, BitVec.toInt_sdiv_of_ne_or_ne _ _ (.inl (wideNumerator_ne_intMin p a)), toInt_wideNumerator,
    BitVec.toInt_signExtend_of_le (by norm_num)]

/-- A division by zero answers `STAT = 1` and a zero result. -/
theorem exec_of_fxExec_eq_divideByZero {i : Instr} {s : State} (h : fxExec s.params i = raiseExc .divideByZero) :
    exec i s = .next { s with phase := .done (1#2 ++ 0#32) } := by
  rw [exec_eq_next, h, rspWord_raise_divideByZero]

/-- The common scale of two real values cancels in their quotient. -/
theorem real_div_real (p : Params) (a b : Word) : real p a / real p b = (s32 a : ℚ) / s32 b := by
  rw [real, real, div_div_div_cancel_right₀ (by positivity)]

/-- The exact quotient of DIV as a real value is no larger than the real quotient (R110). -/
theorem abs_tdiv_div_le (p : Params) (a : Word) {b : Word} (hb : b ≠ 0#32) :
    |(((s32 a * 2 ^ p.F).tdiv (s32 b) : Int) : ℚ) / 2 ^ p.F| ≤ |real p a / real p b| := by
  have hpos : (0 : ℚ) < 2 ^ p.F := by positivity
  have hB : (0 : ℚ) < |(s32 b : ℚ)| := abs_pos.mpr (Int.cast_ne_zero.mpr (s32_ne_zero hb))
  have hmul : |(((s32 a * 2 ^ p.F).tdiv (s32 b) : Int) : ℚ)| * |(s32 b : ℚ)| ≤ |(s32 a : ℚ) * 2 ^ p.F| := by
    exact_mod_cast abs_tdiv_mul_abs_le (s32 a * 2 ^ p.F) (s32 b)
  rw [abs_mul, abs_of_pos hpos] at hmul
  rwa [real_div_real, abs_div, abs_div, abs_of_pos hpos, div_le_div_iff₀ hpos hB]

/-- The exact quotient of DIV as a real value is less than one step from the real quotient (R110). -/
theorem abs_tdiv_div_sub_lt (p : Params) (a : Word) {b : Word} (hb : b ≠ 0#32) :
    |(((s32 a * 2 ^ p.F).tdiv (s32 b) : Int) : ℚ) / 2 ^ p.F - real p a / real p b| < 1 / 2 ^ p.F := by
  have hpos : (0 : ℚ) < 2 ^ p.F := by positivity
  have hB : (s32 b : ℚ) ≠ 0 := Int.cast_ne_zero.mpr (s32_ne_zero hb)
  have hrem : |(((s32 a * 2 ^ p.F).tdiv (s32 b) : Int) : ℚ) * s32 b - s32 a * 2 ^ p.F| < |(s32 b : ℚ)| := by
    exact_mod_cast abs_tdiv_mul_sub_lt (s32 a * 2 ^ p.F) (s32_ne_zero hb)
  rw [real_div_real, div_sub_div _ _ hpos.ne' hB, mul_comm (2 ^ p.F : ℚ) (s32 a), abs_div, abs_mul, abs_of_pos hpos,
    div_mul_eq_div_div_swap]
  exact div_lt_div_of_pos_right ((div_lt_one (abs_pos.mpr hB)).mpr hrem) hpos

/-- The quotient fits when the real quotient is in range (R110). -/
theorem fits32_tdiv_of_real_lt {p : Params} {a b : Word} (hb : b ≠ 0#32)
    (h : |real p a / real p b| < 2 ^ (31 - p.F)) : Fits32 ((s32 a * 2 ^ p.F).tdiv (s32 b)) := by
  have hpos : (0 : ℚ) < 2 ^ p.F := by positivity
  have hpow : (2 : ℚ) ^ (31 - p.F) * 2 ^ p.F = 2 ^ 31 := by exact_mod_cast two_pow_whole_mul_two_pow_F p
  have hlt := (abs_tdiv_div_le p a hb).trans_lt h
  rw [abs_div, abs_of_pos hpos, div_lt_iff₀ hpos, hpow] at hlt
  obtain ⟨hlow, hhigh⟩ := abs_lt.mp (by exact_mod_cast hlt : |(s32 a * 2 ^ p.F).tdiv (s32 b)| < 2 ^ 31)
  exact ⟨hlow.le, Int.le_sub_one_of_lt hhigh⟩

/-- Settles O39: the datapath word is the narrowed exact quotient, from which the rest is read off. -/
theorem divIsTheWidenedDatapath : Obligations.DivIsTheWidenedDatapath := by
  intro a b s
  refine ⟨decode_cmdWord 0x3#4 a b, ?_, fun hb => ⟨wrap32 ((s32 a * 2 ^ s.params.F).tdiv (s32 b)),
    exec_of_fxExec_eq_answerOk (fxDiv_of_ne_zero _ a hb), (setWidth_sdiv_wideNumerator _ a b).symm, fun hfits => ?_,
    fits32_tdiv_of_real_lt hb, ?_, ?_, ?_⟩⟩
  · rintro rfl
    exact exec_of_fxExec_eq_divideByZero (fxDiv_zero _ a)
  · have hquot := s32_wrap32_of_fits hfits
    refine ⟨hquot, ?_⟩
    rw [real, hquot]
    exact ⟨abs_tdiv_div_le _ a hb, abs_tdiv_div_sub_lt _ a hb⟩
  · rintro rfl
    rw [s32, BitVec.toInt_zero, zero_mul, Int.zero_tdiv, wrap32_zero]
  · rintro rfl hF
    rw [s32_onePattern hF, Int.mul_tdiv_cancel _ (by positivity), wrap32_s32]
  · rintro rfl
    rw [Int.mul_tdiv_cancel_left _ (s32_ne_zero hb), onePattern]

/-! ### The overflow predicate -/

/-- Of the integers of magnitude up to `2^31` only `2^31` is out of range. -/
theorem not_fits32_iff_eq_of_abs_le {n : Int} (h : |n| ≤ 2 ^ 31) : ¬ Fits32 n ↔ n = 2 ^ 31 := by
  obtain ⟨hlow, hhigh⟩ := abs_le.mp h
  rw [not_fits32_iff]
  omega

theorem divOvf_iff_not_fits (p : Params) (a b : Word) :
    divOvf p a b ↔ ¬ Fits32 ((s32 a * 2 ^ p.F).tdiv (s32 b)) := by
  rw [divOvf, truncDiv_eq_tdiv]

/-- Settles O40: with such a divisor the quotient is at most `2^31` in magnitude, so that only `2^31` overflows. -/
theorem divOverflowWithLargeDivisor : Obligations.DivOverflowWithLargeDivisor := by
  intro p a b _
  refine ⟨divOvf_iff_not_fits p a b, fun hlarge => ?_⟩
  have hpos : (0 : Int) < 2 ^ p.F := by positivity
  have hle := (abs_tdiv_scaled_le (s32 a) hpos hlarge).trans (abs_s32_le a)
  exact (divOvf_iff_not_fits p a b).trans ((not_fits32_iff_eq_of_abs_le hle).trans
    (tdiv_scaled_eq_two_pow_31_iff (s32_bounds a) hpos hlarge))

/-! ### DIVN -/

/-- The division of words narrows the exact quotient, which changes only `-2^31` by `-1` (R112). -/
theorem wrap32_tdiv (a b : Word) : wrap32 ((s32 a).tdiv (s32 b)) = a.sdiv b := by
  apply BitVec.eq_of_toInt_eq
  rw [BitVec.toInt_ofInt, BitVec.toInt_sdiv]

/-- DIVN's response with the shift and the division as those of words (R112). -/
theorem fxDivn_eq (p : Params) (a : Word) {b : Word} (hb : b ≠ 0#32) :
    fxDivn p a b = answerOk ((a <<< p.F).sdiv b) := by
  rw [fxDivn_of_ne_zero p a hb, wrap32_tdiv]

/-- The shift of a whole part in range loses nothing (R112). -/
theorem s32_shiftLeft_F {p : Params} {a : Word} (ha : WholeInRange p (s32 a)) : s32 (a <<< p.F) = s32 a * 2 ^ p.F := by
  have hfits := fits32_whole_add_fraction ha (Nat.two_pow_pos p.F)
  rw [Nat.cast_zero, add_zero] at hfits
  rw [shiftLeft_eq_wrap32, s32_wrap32_of_fits hfits]

/-- With a dividend whose scaling fits 32 bits DIVN answers what DIV answers (R112). -/
theorem fxDivn_eq_fxDiv {p : Params} {a : Word} (ha : WholeInRange p (s32 a)) (b : Word) :
    fxDivn p a b = fxDiv p a b := by
  by_cases hb : b = 0#32
  · rw [hb, fxDivn_zero, fxDiv_zero]
  · rw [fxDivn_of_ne_zero p a hb, fxDiv_of_ne_zero p a hb, s32_shiftLeft_F ha]

/-- Settles O41: by the word division, whose numerator is that of DIV when the shift loses nothing. -/
theorem divnIsTheNativeDatapath : Obligations.DivnIsTheNativeDatapath := by
  intro a b s
  refine ⟨decode_cmdWord 0x5#4 a b, ?_, fun hb => ⟨_, exec_of_fxExec_eq_answerOk (fxDivn_eq _ a hb), rfl, ?_⟩,
    fun ha => exec_congr (fxDivn_eq_fxDiv ha b)⟩
  · rintro rfl
    exact exec_of_fxExec_eq_divideByZero (fxDivn_zero _ a)
  · intro hnum hone
    rw [hnum, hone]
    exact BitVec.intMin_sdiv_neg_one

/-! ### Multiply, then divide -/

/-- The result in the response latch is the one the operation answered. -/
theorem eq_of_exec_of_fxExec_eq_answerOk {i : Instr} {s : State} {r r' : Word}
    (hexec : exec i s = .next { s with phase := .done (0#2 ++ r) }) (h : fxExec s.params i = answerOk r') : r = r' :=
  congrArg Response.r (((exec_eq_next_rspWord_iff i s (answerOk r)).mp hexec).symm.trans h)

/-- Rounding the product down to a multiple of `u` loses less than `u`, and rounding its quotient toward zero
moves it by less than `b` (R114). -/
theorem abs_tdiv_floor_sub_mul_lt (a : Int) {b u : Int} (hb : b ≠ 0) (hu : 0 < u) :
    |(a * b / u * u).tdiv b - a| * |b| < u + |b| := by
  obtain ⟨hlow, hhigh⟩ := abs_lt.mp (abs_tdiv_mul_sub_lt (a * b / u * u) hb)
  have hle := Int.ediv_mul_le (a * b) hu.ne'
  have hlt := Int.lt_ediv_add_one_mul_self (a * b) hu
  rw [← abs_mul, sub_mul, abs_lt]
  constructor <;> linarith

/-- An error below two divisors is at most one step (R114). -/
theorem abs_le_one_of_mul_lt {e b u : Int} (hbound : |e| * |b| < u + |b|) (hu : u ≤ |b|) : |e| ≤ 1 := by
  have htwo : |e| * |b| < 2 * |b| := by linarith
  exact Int.lt_add_one_iff.mp (lt_of_mul_lt_mul_right htwo (abs_nonneg b))

/-- `MASK` is read as `2^F - 1` for every `F` (R7). -/
theorem s32_maskPattern (p : Params) : s32 (maskPattern p) = 2 ^ p.F - 1 := by
  have hle : (2 : Int) ^ p.F ≤ 2 ^ 31 := by exact_mod_cast two_pow_F_le p
  have hpos : (0 : Int) < 2 ^ p.F := by positivity
  exact s32_wrap32_of_fits ⟨by linarith, by linarith⟩

/-- The largest fraction times the smallest step is rounded down to zero (R114). -/
theorem fxMul_maskPattern_one (p : Params) : fxMul p (maskPattern p) 1#32 = answerOk 0#32 := by
  have hpos : (0 : Int) < 2 ^ p.F := by positivity
  have hfloor : s32 (maskPattern p) * s32 1#32 / 2 ^ p.F = 0 := by
    rw [s32_maskPattern, show s32 1#32 = 1 by decide, mul_one]
    exact Int.ediv_eq_zero_of_lt (by linarith) (by linarith)
  rw [fxMul_eq_floor, hfloor, wrap32_zero]

/-- Settles O42: both results are the exact ones, so the bound is that on integers; the example by the rules. -/
theorem multiplyThenDivideBound : Obligations.MultiplyThenDivideBound := by
  refine ⟨fun a b m d s hb hmul hfitsM hdiv hfitsD => ?_, fun s => ⟨s32_maskPattern _,
    exec_of_fxExec_eq_answerOk (fxMul_maskPattern_one _), ?_⟩⟩
  · have hm : s32 m = s32 a * s32 b / 2 ^ s.params.F := by
      rw [eq_of_exec_of_fxExec_eq_answerOk hmul (fxMul_eq_floor _ a b), s32_wrap32_of_fits hfitsM]
    have hd : s32 d = (s32 m * 2 ^ s.params.F).tdiv (s32 b) := by
      rw [eq_of_exec_of_fxExec_eq_answerOk hdiv (fxDiv_of_ne_zero _ m hb), s32_wrap32_of_fits hfitsD]
    have hbound : |s32 d - s32 a| * |s32 b| < 2 ^ s.params.F + |s32 b| := by
      rw [hd, hm]
      exact abs_tdiv_floor_sub_mul_lt _ (s32_ne_zero hb) (by positivity)
    exact ⟨hbound, abs_le_one_of_mul_lt hbound⟩
  · have hquot := fxDiv_of_ne_zero s.params 0#32 (b := 1#32) (by decide)
    rw [s32, BitVec.toInt_zero, zero_mul, Int.zero_tdiv, wrap32_zero] at hquot
    exact exec_of_fxExec_eq_answerOk hquot

end Sys2Proof.Machine
end

section
/-!
PROOFS. The statements of 45_rounding.md: FLOOR (R120), CEIL (R122), the relation between them (R123), and the
overflow predicate of CEIL (R124).
-/

namespace Sys2Proof.Machine

/-! ### Values with a zero fraction, as narrowed integers -/

/-- Narrowing adds a multiple of `2^32`, so it leaves the fraction as it is. -/
theorem s32_wrap32_emod (p : Params) (n : Int) : s32 (wrap32 n) % 2 ^ p.F = n % 2 ^ p.F := by
  have hword : (2 ^ 32 : Int) ∣ s32 (wrap32 n) - n := by
    rw [s32, BitVec.toInt_ofInt]
    exact Int.dvd_bmod_sub_self
  have hF : p.F ≤ 32 := (params_F_range p).2.trans (by norm_num)
  exact (Int.modEq_iff_dvd.mpr ((pow_dvd_pow 2 hF).trans hword)).symm

/-- Clearing the fraction of a narrowed integer narrows the integer rounded down, whether it wraps or not. -/
theorem wrap32_and_not_maskPattern (p : Params) (n : Int) :
    wrap32 n &&& ~~~ maskPattern p = wrap32 (n / 2 ^ p.F * 2 ^ p.F) := by
  have hround (m : Int) : m / 2 ^ p.F * 2 ^ p.F = m - m % 2 ^ p.F :=
    eq_sub_of_add_eq (Int.ediv_mul_add_emod m _)
  rw [and_not_maskPattern, shiftLeft_eq_wrap32, s32_sshiftRight, hround, hround, s32_wrap32_emod, wrap32_sub,
    wrap32_s32, wrap32_sub]

/-- The mask clears exactly the fraction bits. -/
theorem getLsbD_and_not_maskPattern (p : Params) (a : Word) {i : Nat} (hi : i < 32) :
    (a &&& ~~~ maskPattern p).getLsbD i = (decide (p.F ≤ i) && a.getLsbD i) := by
  have hmask : (~~~ maskPattern p).getLsbD i = decide (p.F ≤ i) := by
    rw [Bool.eq_iff_iff, not_maskPattern_getLsbD p hi, decide_eq_true_iff]
  rw [BitVec.getLsbD_and, hmask, Bool.and_comm]

/-- The fraction bits of a word are the remainder of its signed reading. -/
theorem and_maskPattern_eq_zero_iff (p : Params) (a : Word) :
    a &&& maskPattern p = 0#32 ↔ (2 : Int) ^ p.F ∣ s32 a := by
  have hbits : u32 (a &&& maskPattern p) = u32 a % 2 ^ p.F := by
    rw [u32, BitVec.toNat_and]
    change u32 a &&& u32 (maskPattern p) = _
    rw [u32_maskPattern, Nat.and_two_pow_sub_one_eq_mod]
  have hrem : s32 a % 2 ^ p.F = (u32 a % 2 ^ p.F : Nat) := by
    have h := s32_wrap32_emod p (u32 a)
    rw [wrap32_u32] at h
    exact_mod_cast h
  rw [← BitVec.toNat_inj, BitVec.toNat_zero, Int.dvd_iff_emod_eq_zero, hrem, ← hbits, Int.natCast_eq_zero]

/-- A whole part in range, scaled, is not changed by narrowing. -/
theorem s32_wrap32_whole {p : Params} {m : Int} (hm : WholeInRange p m) : s32 (wrap32 (m * 2 ^ p.F)) = m * 2 ^ p.F := by
  have hfits := fits32_whole_add_fraction hm (Nat.two_pow_pos p.F)
  rw [Nat.cast_zero, add_zero] at hfits
  exact s32_wrap32_of_fits hfits

/-- The real value of a scaled whole part in range is that whole part. -/
theorem real_wrap32_whole {p : Params} {m : Int} (hm : WholeInRange p m) : real p (wrap32 (m * 2 ^ p.F)) = m := by
  rw [real, s32_wrap32_whole hm]
  push_cast
  exact mul_div_cancel_right₀ _ (by positivity)

/-! ### FLOOR -/

/-- The result of FLOOR is the integer rounded down to a multiple of `2^F` (R120). -/
theorem and_not_maskPattern_eq_wrap32 (p : Params) (a : Word) :
    a &&& ~~~ maskPattern p = wrap32 (s32 a / 2 ^ p.F * 2 ^ p.F) := by
  rw [← wrap32_and_not_maskPattern, wrap32_s32]

theorem fxFloor_eq_wrap32 (p : Params) (a : Word) : fxFloor p a = answerOk (wrap32 (s32 a / 2 ^ p.F * 2 ^ p.F)) := by
  rw [fxFloor, and_not_maskPattern_eq_wrap32]

/-- FLOOR leaves a whole value as it is (R120). -/
theorem fxFloor_of_dvd {p : Params} {a : Word} (ha : 2 ^ p.F ∣ s32 a) : fxFloor p a = answerOk a := by
  rw [fxFloor_eq_wrap32, Int.ediv_mul_cancel ha, wrap32_s32]

/-- Settles O43: FLOOR's word is the floor division scaled back, whose whole part is always in range. -/
theorem floorIsExact : Obligations.FloorIsExact := by
  intro a b s
  have hrange := wholeInRange_ediv s.params (s32_bounds a)
  have hvalue : s32 (a &&& ~~~ maskPattern s.params) = s32 a / 2 ^ s.params.F * 2 ^ s.params.F := by
    rw [and_not_maskPattern_eq_wrap32, s32_wrap32_whole hrange]
  refine ⟨_, decode_cmdWord 0x6#4 a b, exec_of_fxExec_eq_answerOk rfl,
    fun i hi => getLsbD_and_not_maskPattern _ a hi, hvalue, ?_, exec_of_fxExec_eq_answerOk (fxFloor_of_dvd ?_)⟩
  · rw [and_not_maskPattern_eq_wrap32, real_wrap32_whole hrange, real, floor_div_two_pow]
  · rw [hvalue]
    exact dvd_mul_left _ _

/-! ### CEIL -/

theorem maskPattern_eq_ofNat (p : Params) : maskPattern p = BitVec.ofNat 32 (2 ^ p.F - 1) := by
  rw [← u32_maskPattern, u32, BitVec.ofNat_toNat, BitVec.setWidth_eq]

/-- CEIL's response with the sum as that of words (R122). -/
theorem fxCeil_eq (p : Params) (a : Word) : fxCeil p a = answerOk ((a + maskPattern p) &&& ~~~ maskPattern p) := by
  rw [fxCeil, wrap32_add, wrap32_s32, wrap32_u32]

/-- Rounding up is adding the largest remainder and rounding down (R122). -/
theorem add_sub_one_ediv (n : Int) {u : Int} (hu : 0 < u) : (n + (u - 1)) / u = -(-n / u) := by
  rw [Int.ediv_eq_iff_of_pos hu, neg_mul]
  have hlow := Int.ediv_mul_le (-n) hu.ne'
  have hhigh := Int.lt_ediv_add_one_mul_self (-n) hu
  rw [add_mul, one_mul] at hhigh
  constructor <;> omega

/-- The result of CEIL is the integer rounded up to a multiple of `2^F`, narrowed, for every operand (R122). -/
theorem add_maskPattern_and_not (p : Params) (a : Word) :
    (a + maskPattern p) &&& ~~~ maskPattern p = wrap32 (-(-s32 a / 2 ^ p.F) * 2 ^ p.F) := by
  rw [add_eq_wrap32, s32_maskPattern, wrap32_and_not_maskPattern, add_sub_one_ediv _ (by positivity)]

/-- A whole value is its own ceiling. -/
theorem neg_neg_ediv_mul_of_dvd {n u : Int} (hn : u ∣ n) : -(-n / u) * u = n := by
  rw [Int.neg_ediv_of_dvd hn, neg_neg, Int.ediv_mul_cancel hn]

theorem fxCeil_eq_wrap32 (p : Params) (a : Word) :
    fxCeil p a = answerOk (wrap32 (-(-s32 a / 2 ^ p.F) * 2 ^ p.F)) := by
  rw [fxCeil_eq, add_maskPattern_and_not]

/-- CEIL leaves a whole value as it is, at both ends of the range (R122). -/
theorem fxCeil_of_dvd {p : Params} {a : Word} (ha : 2 ^ p.F ∣ s32 a) : fxCeil p a = answerOk a := by
  rw [fxCeil_eq_wrap32, neg_neg_ediv_mul_of_dvd ha, wrap32_s32]

/-- Within the condition of R122 the ceiling is a whole part in range. -/
theorem wholeInRange_ceil {p : Params} {a : Word} (ha : s32 a ≤ 2 ^ 31 - 2 ^ p.F) :
    WholeInRange p (-(-s32 a / 2 ^ p.F)) := by
  have hpos : (0 : Int) < 2 ^ p.F := by positivity
  rw [← add_sub_one_ediv _ hpos]
  exact wholeInRange_ediv p ⟨by linarith [(s32_bounds a).1], by linarith⟩

/-- Past the condition of R122 the integer rounded up is `2^31`. -/
theorem neg_neg_ediv_mul_of_ceilOvf {p : Params} {a : Word} (ha : ceilOvf p a) :
    -(-s32 a / 2 ^ p.F) * 2 ^ p.F = 2 ^ 31 := by
  have hhigh := (s32_bounds a).2
  rw [ceilOvf] at ha
  have hceil : (s32 a + (2 ^ p.F - 1)) / 2 ^ p.F = 2 ^ (31 - p.F) := by
    rw [Int.ediv_eq_iff_of_pos (by positivity), two_pow_whole_mul_two_pow_F]
    constructor <;> linarith
  rw [← add_sub_one_ediv _ (by positivity), hceil, two_pow_whole_mul_two_pow_F]

/-- The ceiling of the real value is the integer ceiling of the scaled representation. -/
theorem ceil_real (p : Params) (a : Word) : ⌈real p a⌉ = -(-s32 a / 2 ^ p.F) := by
  rw [← neg_neg ⌈real p a⌉, ← Int.floor_neg, real, ← neg_div, ← Int.cast_neg, floor_div_two_pow]

/-- Settles O44: CEIL's word is the narrowed integer ceiling; it fits up to the condition and is `2^31` past it. -/
theorem ceilRoundsUp : Obligations.CeilRoundsUp := by
  intro a b s
  have hceil := add_maskPattern_and_not s.params a
  rw [← maskPattern_eq_ofNat]
  refine ⟨_, decode_cmdWord 0x7#4 a b, exec_of_fxExec_eq_answerOk (fxCeil_eq _ a), rfl, fun i hi => ?_,
    fun ha => ?_, fun ha => ?_, fun ha => ?_, exec_of_fxExec_eq_answerOk (fxCeil_of_dvd ?_)⟩
  · have hF := (params_F_range s.params).2
    rw [getLsbD_and_not_maskPattern _ _ (by omega), decide_eq_false hi.not_ge, Bool.false_and]
  · rw [hceil, neg_neg_ediv_mul_of_dvd (Int.dvd_of_emod_eq_zero ha), wrap32_s32]
  · have hrange := wholeInRange_ceil ha
    rw [hceil, ceil_real]
    exact ⟨s32_wrap32_whole hrange, real_wrap32_whole hrange⟩
  · rw [hceil, neg_neg_ediv_mul_of_ceilOvf ha]
    rfl
  · rw [hceil, Int.dvd_iff_emod_eq_zero, s32_wrap32_emod, Int.mul_emod_left]

/-! ### CEIL beside FLOOR -/

/-- A value that is not whole has its ceiling one above its floor (R123). -/
theorem neg_neg_ediv_of_not_dvd {n u : Int} (hu : 0 < u) (hn : ¬ u ∣ n) : -(-n / u) = n / u + 1 := by
  rw [Int.neg_ediv, if_neg hn, Int.sign_eq_one_of_pos hu]
  ring

/-- The shift of RESOLVET takes the scale of a whole part in range off again (R80). -/
theorem s32_sshiftRight_wrap32_whole {p : Params} {m : Int} (hm : WholeInRange p m) :
    s32 ((wrap32 (m * 2 ^ p.F)).sshiftRight p.F) = m := by
  rw [s32_sshiftRight, s32_wrap32_whole hm, Int.mul_ediv_cancel _ (by positivity)]

/-- Settles O45: on whole values by the two rules, otherwise by the ceiling that is one above the floor. -/
theorem ceilIsFloorPlusOne : Obligations.CeilIsFloorPlusOne := by
  intro a b s
  rw [ne_eq, and_maskPattern_eq_zero_iff]
  refine ⟨_, _, exec_of_fxExec_eq_answerOk (fxFloor_eq_wrap32 _ a), exec_of_fxExec_eq_answerOk (fxCeil_eq_wrap32 _ a),
    fun ha => ⟨?_, ?_⟩, fun ha => ⟨?_, fun hexact => ⟨_, _, exec_of_fxExec_eq_answerOk (fxResolvet_eq _ _),
      exec_of_fxExec_eq_answerOk (fxResolvet_eq _ _), ?_⟩⟩⟩
  · rw [Int.ediv_mul_cancel ha, wrap32_s32]
  · rw [neg_neg_ediv_mul_of_dvd ha, wrap32_s32]
  · rw [neg_neg_ediv_of_not_dvd (by positivity) ha, add_one_mul, wrap32_add, onePattern]
  · change s32 _ = s32 _ + 1
    rw [s32_sshiftRight_wrap32_whole (wholeInRange_ceil hexact),
      s32_sshiftRight_wrap32_whole (wholeInRange_ediv _ (s32_bounds a)),
      neg_neg_ediv_of_not_dvd (by positivity) ha]

/-! ### The overflow predicate of CEIL -/

/-- CEIL overflows where ADD of `A` and `MASK` does, with the same signs: `MASK` is not negative (R124). -/
theorem ceilOvf_iff_addOvf (p : Params) (a : Word) : ceilOvf p a ↔ addOvf a (maskPattern p) := by
  have hpos : (0 : Int) < 2 ^ p.F := by positivity
  have hlow := (s32_bounds a).1
  rw [addOvf_iff_saddOverflow, saddOverflow_iff_not_fits, not_fits32_iff, s32_maskPattern, ceilOvf]
  constructor
  · exact fun h => .inl (by linarith)
  · rintro (h | h) <;> linarith

theorem msb_maskPattern (p : Params) : (maskPattern p).msb = false := by
  rw [BitVec.msb_eq_toInt, decide_eq_false_iff_not, not_lt]
  change 0 ≤ s32 (maskPattern p)
  rw [s32_maskPattern]
  have hpos : (0 : Int) < 2 ^ p.F := by positivity
  linarith

/-- Settles O46: the value form is the definition, the sign bits are those of the overflowing addition. -/
theorem ceilOverflowPredicate : Obligations.CeilOverflowPredicate := by
  intro p a
  refine ⟨Iff.rfl, ?_⟩
  rw [ceilOvf_iff_addOvf, addOvf, msb_maskPattern, ← add_eq_wrap32, getLsbD_31, getLsbD_31]
  refine and_congr_right fun ha => ?_
  rw [ha, ne_eq, Bool.not_eq_false]

end Sys2Proof.Machine
end

section
/-!
PROOFS. The statements of 60_exceptions.md: which status an operation answers (R130, R132, R133), that an
earlier operation leaves no trace (R131, R138), and that nothing but a command or a reset acts on an idle unit
(R143).
-/

namespace Sys2Proof.Machine

/-! ### The status of an operation -/

/-- A divider raises DivideByZero for a zero divisor, and no other operation does (R132). -/
theorem fxExec_eq_raise_divideByZero_iff (p : Params) (i : Instr) :
    fxExec p i = raiseExc .divideByZero ↔ (opCodeOf i = 0x3#4 ∨ opCodeOf i = 0x5#4) ∧ i.fieldB = 0#32 := by
  cases i with
  | div a b =>
    rcases eq_or_ne b 0#32 with rfl | hb
    · simp [fxExec, fxDiv_zero, opCodeOf, Instr.fieldB]
    · simp [fxExec, fxDiv_of_ne_zero p a hb, hb, Instr.fieldB, answerOk, raiseExc, excStatus]
  | divn a b =>
    rcases eq_or_ne b 0#32 with rfl | hb
    · simp [fxExec, fxDivn_zero, opCodeOf, Instr.fieldB]
    · simp [fxExec, fxDivn_of_ne_zero p a hb, hb, Instr.fieldB, answerOk, raiseExc, excStatus]
  | reservedC | reservedD | reservedE | reservedF =>
    simp [fxExec, fxReserved, opCodeOf, raiseExc, excStatus]
  | add | sub | mul | muln | floor | ceil | resolvet | resolver | maker | maked =>
    exact iff_of_false (fun h => nomatch congrArg Response.stat h) (by simp [opCodeOf])

/-- The status of an exception comes with its whole response: the result is zero (R131). -/
theorem fxExec_stat_eq_iff (p : Params) (i : Instr) (e : Exc) :
    statusCode (fxExec p i).stat = statusCode (excStatus e) ↔ fxExec p i = raiseExc e := by
  rw [statusCode_injective.eq_iff]
  refine ⟨fun hstat => ?_, congrArg Response.stat⟩
  have hr : (fxExec p i).r = 0#32 :=
    (legalRsp_rspWord_iff _).mp (legalRsp_rspWord_fxExec p i) (by rw [hstat]; cases e <;> decide)
  rw [raiseExc, ← hstat, ← hr]

/-- Settles O10: the latch holds the response of `fx_exec`, whose status names the exception raised, if any. -/
theorem statusOfEveryOperation : Obligations.StatusOfEveryOperation := by
  intro i s
  have hlegal := legalRsp_rspWord_fxExec s.params i
  rw [LegalRsp, rspStat_rspWord, rspR_rspWord] at hlegal
  refine ⟨_, _, exec_eq_next i s, ?_, ?_, hlegal⟩
  · rw [← fxExec_eq_raise_divideByZero_iff s.params]
    exact fxExec_stat_eq_iff s.params i .divideByZero
  · rw [← form_eq_reserved_iff, ← fxExec_eq_raise_illegalOperation_iff s.params]
    exact fxExec_stat_eq_iff s.params i .illegalOperation

/-! ### The host's record -/

/-- An edge in IDLE at which the host offers nothing. -/
theorem step_of_idle_no_offer {s : State} (hr : (pinsOf s).rst = false) (hp : s.phase = .idle)
    (hv : (pinsOf s).reqValid = false) : step s = .next (nextEdge s) :=
  step_of_move (by simp [edgeAction_idle hr hp, hv])

/-- The state with another record of words accepted and responses received. -/
def withRecord (h : List CmdWord) (g : List RspWord) (s : State) : State := { s with sent := h, got := g }

/-- No transition reads the record: what a step makes of the rest of the state does not depend on it. -/
theorem exists_step_withRecord (s : State) :
    ∃ t, ∀ h g, ∃ h' g', step (withRecord h g s) = .next (withRecord h' g' t) := by
  obtain ⟨hr, -⟩ | ⟨hr, ⟨idle, hv, ⟨hl, -⟩ | ⟨n, hl, -⟩⟩ | ⟨idle, hv, -⟩ | ⟨c, busy, -⟩ | ⟨c, n, busy, -⟩ |
    ⟨r, done, hd, -⟩ | ⟨r, done, hd, -⟩⟩ := step_cases s
  · exact ⟨takeReset (nextEdge s), fun h g => ⟨[], [], step_of_move (edgeAction_of_reset hr)⟩⟩
  · exact ⟨respond (fxExec s.params (decode (pinsOf s).reqCmd)) (nextEdge s), fun h g =>
      ⟨h ++ [(pinsOf s).reqCmd], g,
        (step_of_offer_latency_zero (s := withRecord h g s) hr idle hv hl).trans (exec_eq_next _ _)⟩⟩
  · exact ⟨accept (pinsOf s).reqCmd n (nextEdge s), fun h g =>
      ⟨h ++ [(pinsOf s).reqCmd], g, step_of_offer_latency_succ (s := withRecord h g s) hr idle hv hl⟩⟩
  · exact ⟨nextEdge s, fun h g => ⟨h, g, step_of_idle_no_offer (s := withRecord h g s) hr idle hv⟩⟩
  · exact ⟨respond (fxExec s.params (decode c)) (nextEdge s), fun h g =>
      ⟨h, g, (step_of_busy_zero (s := withRecord h g s) hr busy).trans (exec_eq_next _ _)⟩⟩
  · exact ⟨waitIn c n (nextEdge s), fun h g =>
      ⟨h, g, step_of_move (edgeAction_busy (s := withRecord h g s) hr busy)⟩⟩
  · exact ⟨deliver r (nextEdge s), fun h g =>
      ⟨h, g ++ [r], step_of_done_ready (s := withRecord h g s) hr done hd⟩⟩
  · exact ⟨nextEdge s, fun h g => ⟨h, g, step_of_done_not_ready (s := withRecord h g s) hr done hd⟩⟩

/-- No run reads the record either. -/
theorem exists_run_withRecord (k : Nat) (s : State) :
    ∃ t, ∀ h g, ∃ h' g', Host.Core.run core k (withRecord h g s) = .next (withRecord h' g' t) := by
  induction k generalizing s with
  | zero => exact ⟨s, fun h g => ⟨h, g, rfl⟩⟩
  | succ k ih =>
    obtain ⟨u, hstep⟩ := exists_step_withRecord s
    obtain ⟨t, hrun⟩ := ih u
    refine ⟨t, fun h g => ?_⟩
    obtain ⟨h', g', hu⟩ := hstep h g
    rw [run_of_step hu]
    exact hrun h' g'

/-- Settles O13: both runs end in one state but for the record. -/
theorem earlierOperationsLeaveNoTrace : Obligations.EarlierOperationsLeaveNoTrace := by
  intro k s h h' g g'
  obtain ⟨t, hrun⟩ := exists_run_withRecord k s
  obtain ⟨_, _, hfirst⟩ := hrun h g
  obtain ⟨_, _, hsecond⟩ := hrun h' g'
  exact ⟨_, _, hfirst, hsecond, rfl, rfl, rfl, rfl⟩

/-! ### Waiting in IDLE -/

/-- Settles O20: the induction over edges at which nothing happens, which in IDLE are those without an offer. -/
theorem idleWaitsForACommand : Obligations.IdleWaitsForACommand :=
  run_of_stays ⟨rfl, rfl⟩ fun _ hp ⟨hr, hv⟩ => step_of_idle_no_offer hr hp hv

end Sys2Proof.Machine
end

section
/-!
PROOFS. The statements of 70_reset_and_hazards.md: reset has priority (R150), each operation is exact within its
condition (R156), and the unit never stops, completes what it accepts, and can answer every list of commands
(R160, R161).
-/

namespace Sys2Proof.Machine

/-! ### Runs -/

/-- A step is a move or a Compute, and both answer a next state (R160, R161). -/
theorem exists_step_eq_next (s : State) : ∃ t, step s = .next t := by
  rcases h : edgeAction s with t | ⟨c, t⟩
  · exact ⟨t, step_of_move h⟩
  · exact ⟨_, step_of_compute h⟩

/-- Settles O21: the induction over edges, none of which stops the unit. -/
theorem theUnitNeverStops : Obligations.TheUnitNeverStops := by
  intro k
  induction k with
  | zero => exact fun s => ⟨s, rfl⟩
  | succ k ih =>
    intro s
    obtain ⟨u, hu⟩ := exists_step_eq_next s
    rw [run_of_step hu]
    exact ih u

/-- A run is continued from the state it ends in. -/
theorem run_add {j : Nat} (k : Nat) {s t : State} (h : Host.Core.run core j s = .next t) :
    Host.Core.run core (j + k) s = Host.Core.run core k t := by
  induction j generalizing s with
  | zero =>
    cases h
    rw [Nat.zero_add]
  | succ j ih =>
    obtain ⟨u, hu⟩ := exists_step_eq_next s
    rw [run_of_step hu] at h
    rw [Nat.add_right_comm, run_of_step hu, ih h]

/-- The state with `k` edges taken from the host's drive, and no transition at any of them. -/
def afterEdges (k : Nat) (s : State) : State := { s with drive := s.drive.drop k, edge := s.edge + k }

theorem afterEdges_one (s : State) : afterEdges 1 s = nextEdge s := by
  rw [afterEdges, nextEdge, List.drop_one]

theorem afterEdges_nextEdge (k : Nat) (s : State) : afterEdges k (nextEdge s) = afterEdges (k + 1) s := by
  simp [afterEdges, nextEdge, Nat.add_assoc, Nat.add_comm 1]

/-! ### Reset -/

/-- Within the host's drive the coming pins are in the list. -/
theorem pinsOf_mem_take {k : Nat} {s : State} (h : k + 1 ≤ s.drive.length) : pinsOf s ∈ s.drive.take (k + 1) := by
  rcases hdrive : s.drive with _ | ⟨p, ps⟩
  · simp [hdrive] at h
  · simp [pinsOf_of_drive hdrive]

/-- A row of edges with `rst = 1` does what one of them does (R150). -/
theorem run_of_resets {k : Nat} {s : State} (hlen : k + 1 ≤ s.drive.length)
    (h : ∀ p ∈ s.drive.take (k + 1), p.rst = true) :
    Host.Core.run core (k + 1) s = .next (takeReset (afterEdges (k + 1) s)) := by
  have hr : (pinsOf s).rst = true := h _ (pinsOf_mem_take hlen)
  induction k generalizing s with
  | zero =>
    rw [run_of_step (step_of_move (edgeAction_of_reset hr)), Nat.zero_add, afterEdges_one]
    rfl
  | succ k ih =>
    have hlen' : k + 1 ≤ s.drive.tail.length := by simpa using Nat.le_sub_of_add_le hlen
    have h' := forall_take_tail h
    rw [run_of_step (step_of_move (edgeAction_of_reset hr)), ← afterEdges_nextEdge]
    exact ih (s := takeReset (nextEdge s)) hlen' h' (h' _ (pinsOf_mem_take hlen'))

/-- Settles O19: the run ends in the state one reset leads to, from whatever phase. -/
theorem resetOverridesEverything : Obligations.ResetOverridesEverything := fun _ s hlen h =>
  have hidle := takeReset_phase (afterEdges _ s)
  ⟨_, run_of_resets hlen h, hidle, (reqReady_iff _).mpr hidle, rfl, rfl, Nat.zero_le _, Nat.zero_le _⟩

/-! ### Completion -/

/-- A host that does not reset at the coming edges of its drive does not reset at the next edge. -/
theorem pinsOf_no_reset {k : Nat} {s : State} (h : ∀ p ∈ s.drive.take (k + 1), p.rst = false) :
    (pinsOf s).rst = false :=
  pinsOf_of_forall_take (P := fun p => p.rst = false) rfl h

/-- An edge in BUSY with wait left. -/
theorem step_of_busy_succ {s : State} {c : CmdWord} {n : Nat} (hr : (pinsOf s).rst = false)
    (hp : s.phase = .busy c (n + 1)) : step s = .next (waitIn c n (nextEdge s)) :=
  step_of_move (by simp [edgeAction_busy hr hp, busyAction])

/-- From BUSY the wait is counted down and then the command is answered (R27, R160). -/
theorem run_of_busy {n : Nat} {s : State} {c : CmdWord} (hp : s.phase = .busy c n)
    (h : ∀ p ∈ s.drive.take (n + 1), p.rst = false) :
    Host.Core.run core (n + 1) s = .next (respond (fxExec s.params (decode c)) (afterEdges (n + 1) s)) := by
  induction n generalizing s with
  | zero =>
    have hstep := step_of_busy_zero (pinsOf_no_reset h) hp
    rw [exec_eq_finish_fxExec] at hstep
    rw [run_of_step hstep, Nat.zero_add, afterEdges_one]
    rfl
  | succ n ih =>
    rw [run_of_step (step_of_busy_succ (pinsOf_no_reset h) hp), ← afterEdges_nextEdge]
    exact ih (s := waitIn c n (nextEdge s)) rfl (forall_take_tail h)

/-- Settles O17: the answer is that of `exec`, which reads the parameters only. -/
theorem everyAcceptedCommandCompletes : Obligations.EveryAcceptedCommandCompletes := fun _ _ _ hp h =>
  ⟨_, _, run_of_busy hp h, respond_phase _ _, exec_eq_finish_fxExec _ _⟩

/-! ### Answering a list of commands -/

/-- From an offer in IDLE to DONE takes the accepting edge and as many as the free latency, which may be 0 (R26,
R27). -/
theorem run_of_offer {n : Nat} {s : State} {c : CmdWord} (hp : s.phase = .idle) (hv : (pinsOf s).reqValid = true)
    (hc : (pinsOf s).reqCmd = c) (hl : Config.latency s.params s.edge c = n)
    (h : ∀ p ∈ s.drive.take (n + 1), p.rst = false) :
    Host.Core.run core (n + 1) s =
      .next (respond (fxExec s.params (decode c)) (accept c 0 (afterEdges (n + 1) s))) := by
  subst hc
  cases n with
  | zero =>
    have hstep := step_of_offer_latency_zero (pinsOf_no_reset h) hp hv hl
    rw [exec_eq_finish_fxExec] at hstep
    rw [run_of_step hstep, Nat.zero_add, afterEdges_one]
    rfl
  | succ n =>
    rw [run_of_step (step_of_offer_latency_succ (pinsOf_no_reset h) hp hv hl), ← afterEdges_nextEdge]
    exact run_of_busy (s := accept _ n (nextEdge s)) rfl (forall_take_tail h)

/-- A host that offers `c` at one edge. -/
def offerPins (c : CmdWord) : HostPins := { rst := false, reqValid := true, reqCmd := c, rspReady := false }

/-- A host that takes a response at one edge. -/
def takePins : HostPins := { rst := false, reqValid := false, reqCmd := 0#68, rspReady := true }

/-- A host that offers `c`, waits `n` edges and then takes the response. -/
def exchange (c : CmdWord) (n : Nat) : List HostPins := offerPins c :: (List.replicate n quietPins ++ [takePins])

theorem exchange_no_reset {c : CmdWord} {n : Nat} {p : HostPins} (h : p ∈ exchange c n) : p.rst = false := by
  simp only [exchange, List.mem_cons, List.mem_append, List.mem_replicate, List.not_mem_nil, or_false] at h
  obtain rfl | ⟨-, rfl⟩ | rfl := h <;> rfl

/-- Up to the edge before its last an exchange has no reset, whatever follows it. -/
theorem take_exchange_no_reset {c : CmdWord} {n : Nat} {ps : List HostPins} :
    ∀ p ∈ (exchange c n ++ ps).take (n + 1), p.rst = false := by
  intro p hmem
  rw [List.take_append_of_le_length (by simp [exchange])] at hmem
  exact exchange_no_reset (List.mem_of_mem_take hmem)

/-- The last edge of an exchange. -/
theorem drop_exchange (c : CmdWord) (n : Nat) (ps : List HostPins) :
    (exchange c n ++ ps).drop (n + 1) = takePins :: ps := by
  simp [exchange]

/-- A host that waits out the free latency gets its command answered, and the unit is back in IDLE. -/
theorem run_of_exchange {s : State} {c : CmdWord} {n : Nat} {ps : List HostPins} (hp : s.phase = .idle)
    (hdrive : s.drive = exchange c n ++ ps) (hl : Config.latency s.params s.edge c = n) :
    Host.Core.run core (n + 1 + 1) s = .next { s with
      drive := ps, sent := s.sent ++ [c], got := s.got ++ [answer s.params c], edge := s.edge + (n + 1 + 1) } := by
  have hoffer : pinsOf s = offerPins c := pinsOf_of_drive hdrive
  have hdone := run_of_offer (c := c) hp (congrArg HostPins.reqValid hoffer) (congrArg HostPins.reqCmd hoffer) hl
    (hdrive ▸ take_exchange_no_reset)
  have hrest : s.drive.drop (n + 1) = takePins :: ps := by rw [hdrive, drop_exchange]
  have hps : s.drive.drop (n + 1 + 1) = ps := by rw [← List.tail_drop, hrest, List.tail_cons]
  have htake := pinsOf_of_drive
    (s := respond (fxExec s.params (decode c)) (accept c 0 (afterEdges (n + 1) s))) hrest
  have hgive := step_of_done_ready (congrArg HostPins.rst htake) (respond_phase _ _)
    (congrArg HostPins.rspReady htake)
  rw [run_add 1 hdone, run_of_step (k := 0) hgive]
  simp [deliver, nextEdge, afterEdges, hps, hp, answer, Host.Core.run, Nat.add_assoc]

/-- The drive of a host that gets the words `cs` answered, one after the other, by an idle unit built with `p`
whose next edge has number `e`. -/
def answeringDrive (p : Params) (e : Nat) : List CmdWord → List HostPins
  | [] => []
  | c :: cs => exchange c (Config.latency p e c) ++ answeringDrive p (e + (Config.latency p e c + 1 + 1)) cs

/-- Such a host gets all its words answered. -/
theorem exists_run_of_answeringDrive {cs : List CmdWord} {s : State} (hp : s.phase = .idle)
    (hdrive : s.drive = answeringDrive s.params s.edge cs) :
    ∃ k e, Host.Core.run core k s = .next { s with
      drive := [], sent := s.sent ++ cs, got := s.got ++ cs.map (answer s.params), edge := e } := by
  induction cs generalizing s with
  | nil =>
    rw [answeringDrive] at hdrive
    exact ⟨0, s.edge, by simp [Host.Core.run, ← hdrive]⟩
  | cons c cs ih =>
    have hfirst := run_of_exchange hp hdrive rfl
    obtain ⟨k, e, hrest⟩ := ih (s := { s with
      drive := answeringDrive s.params (s.edge + (Config.latency s.params s.edge c + 1 + 1)) cs,
      sent := s.sent ++ [c], got := s.got ++ [answer s.params c],
      edge := s.edge + (Config.latency s.params s.edge c + 1 + 1) }) hp rfl
    exact ⟨_, e, (run_add k hfirst).trans (by simpa using hrest)⟩

/-- Settles O27: the host that waits out each latency, from reset on. -/
theorem everyCommandListCanBeAnswered : Obligations.EveryCommandListCanBeAnswered := by
  intro p cs
  obtain ⟨k, _, hrun⟩ := exists_run_of_answeringDrive (s := State.resetWith p (answeringDrive p 0 cs)) rfl rfl
  exact ⟨_, k, _, hrun, rfl, rfl, rfl, rfl⟩

/-! ### Exactness -/

theorem ne_zero_of_s32_ne_zero {b : Word} (h : s32 b ≠ 0) : b ≠ 0#32 := by
  rintro rfl
  exact h BitVec.toInt_zero

/-- The exactness condition of DIV: a quotient that fits is not wrapped (R110). -/
theorem fxDiv_of_fits {p : Params} {a b : Word} (hb : s32 b ≠ 0) (h : Fits32 ((s32 a * 2 ^ p.F).tdiv (s32 b))) :
    ∃ r, fxDiv p a b = answerOk r ∧ s32 r = (s32 a * 2 ^ p.F).tdiv (s32 b) :=
  ⟨_, fxDiv_of_ne_zero p a (ne_zero_of_s32_ne_zero hb), s32_wrap32_of_fits h⟩

/-- The exactness condition of DIVN: of a dividend whose scaling fits only one quotient does not (R112). -/
theorem fits32_tdiv_of_whole {p : Params} {a b : Int} (ha : WholeInRange p a) (hb : b ≠ 0)
    (h : ¬ (a * 2 ^ p.F = -2 ^ 31 ∧ b = -1)) : Fits32 ((a * 2 ^ p.F).tdiv b) := by
  have hfits : Fits32 (a * 2 ^ p.F) := (fits32_iff_s32_wrap32 _).mpr (s32_wrap32_whole ha)
  have habs : |a * 2 ^ p.F| ≤ 2 ^ 31 := abs_le.mpr ⟨hfits.1, hfits.2.trans (by norm_num)⟩
  have hone : 1 ≤ |b| := Int.one_le_abs hb
  have hle := abs_tdiv_scaled_le (a * 2 ^ p.F) one_pos hone
  have hiff := tdiv_scaled_eq_two_pow_31_iff hfits one_pos hone
  rw [mul_one] at hle hiff
  by_contra hnot
  exact h (hiff.mp ((not_fits32_iff_eq_of_abs_le (hle.trans habs)).mp hnot))

/-- The exactness condition of MAKED: in range and in domain the OR adds the rescaled fraction (R72). -/
theorem s32_shiftLeft_or_rescaled {p : Params} {a : Word} {n : Nat} (ha : WholeInRange p (s32 a)) (hn : n < p.Q) :
    s32 (a <<< p.F ||| BitVec.ofNat 32 (n * 2 ^ p.F / p.Q)) = s32 a * 2 ^ p.F + (n * 2 ^ p.F / p.Q : Nat) := by
  have hword := u32_ofNat_rescaled hn
  rw [s32_shiftLeft_or ha (hword.trans_lt (rescaled_lt_two_pow_F hn)), hword]

/-- Settles O31: each operation by the lemma that narrowing, or the OR of the fraction, loses nothing within its
condition. -/
theorem resultsAreExactWithinTheirConditions : Obligations.ResultsAreExactWithinTheirConditions := by
  intro i s h
  cases i with
  | add a b => exact ⟨_, exec_of_fxExec_eq_answerOk (fxAdd_eq a b), s32_add_of_fits h⟩
  | sub a b => exact ⟨_, exec_of_fxExec_eq_answerOk (fxSub_eq a b), s32_sub_of_fits h⟩
  | mul a b => exact ⟨_, exec_of_fxExec_eq_answerOk (fxMul_eq_floor _ a b), s32_wrap32_of_fits h⟩
  | div a b =>
    obtain ⟨hb, hfits⟩ := h
    rw [truncDiv_eq_tdiv] at hfits
    obtain ⟨r, hr, hquot⟩ := fxDiv_of_fits hb hfits
    exact ⟨r, exec_of_fxExec_eq_answerOk hr, hquot⟩
  | muln a b =>
    have hprod := s32_mul_of_fits h
    exact ⟨_, exec_of_fxExec_eq_answerOk (fxMuln_eq _ a b), (s32_sshiftRight _ _).trans (by rw [hprod])⟩
  | divn a b =>
    obtain ⟨hb, ha, hone⟩ := h
    obtain ⟨r, hr, hquot⟩ := fxDiv_of_fits hb (fits32_tdiv_of_whole ha hb hone)
    exact ⟨r, exec_of_fxExec_eq_answerOk ((fxDivn_eq_fxDiv ha b).trans hr), hquot⟩
  | floor a b =>
    have hrange := wholeInRange_ediv s.params (s32_bounds a)
    exact ⟨_, exec_of_fxExec_eq_answerOk (fxFloor_eq_wrap32 _ a), s32_wrap32_whole hrange⟩
  | ceil a b =>
    have hrange := wholeInRange_ceil h
    exact ⟨_, exec_of_fxExec_eq_answerOk (fxCeil_eq_wrap32 _ a), s32_wrap32_whole hrange⟩
  | resolvet a b => exact ⟨_, exec_of_fxExec_eq_answerOk (fxResolvet_eq _ a), s32_sshiftRight a _⟩
  | resolver a b => exact ⟨_, exec_of_fxExec_eq_answerOk (fxResolver_eq _ a), s32_resolver_of_exact h⟩
  | maker a b =>
    obtain ⟨ha, hb⟩ := h
    have hb' : (u32 b : Int) < 2 ^ s.params.F := Int.lt_of_le_sub_one hb
    exact ⟨_, exec_of_fxExec_eq_answerOk (fxMaker_eq _ a b), s32_shiftLeft_or ha (by exact_mod_cast hb')⟩
  | maked a b =>
    obtain ⟨ha, hb⟩ := h
    exact ⟨_, exec_of_fxExec_eq_answerOk (fxMaked_eq _ a b), s32_shiftLeft_or_rescaled ha hb⟩
  | reservedC | reservedD | reservedE | reservedF => exact absurd h not_false

end Sys2Proof.Machine
end
